-- ==== Sys2Proof/Word.lean ====
section
/-! DEFINITION. The word types of the block (spec/00_scope.md R6, R8): every value is an unsigned bit field. -/

namespace Sys2Proof

/-- One 8-bit unsigned value: a byte, or the code of a character (R6, R45). -/
abbrev Byte := BitVec 8

/-- One 6-bit value, "the atomic unit of base64 encoding" (R6, R11). -/
abbrev Sixtet := BitVec 6

/-- The 32-bit data part of a beat: four lanes of 8 bits (R6, R42). -/
abbrev Data := BitVec 32

/-- One request or response beat of 40 bits (R6, R46). -/
abbrev Beat := BitVec 40

end Sys2Proof
end

