-- ==== Sys2Proof/Machine/Fields.lean ====
section
/-! DEFINITION. The bit fields of the request beat (spec/30_encoding.md R60), of the response beat (R67) and of their
lanes (spec/20_memory.md R42): taking each field out, and putting a beat together. -/

namespace Sys2Proof

/-- Lane i of a data part, `d[8i+7:8i]`; lane 0 is the first in message order (R9, R42). -/
def lane (d : Data) (i : Nat) : Byte := d.extractLsb' (8 * i) 8

/-- The data part whose lanes 0 to 3 are the given ones, `(L3 << 24) | (L2 << 16) | (L1 << 8) | L0` (R42, R60). -/
def packLanes (l0 l1 l2 l3 : Byte) : Data :=
  l3.setWidth 32 <<< 24 ||| l2.setWidth 32 <<< 16 ||| l1.setWidth 32 <<< 8 ||| l0.setWidth 32

/-- The data part whose first lanes are the given bytes, every lane above them 0x00 (R67, R107). -/
def packBytes (bs : List Byte) : Data :=
  packLanes (bs.getD 0 0) (bs.getD 1 0) (bs.getD 2 0) (bs.getD 3 0)

/-- OPC, bits [39:32] of a request beat (R9, R60). -/
def opcOf (b : Beat) : Byte := b.extractLsb' 32 8

/-- The data part, bits [31:0], of a request or response beat (R60, R67). -/
def dataOf (b : Beat) : Data := b.extractLsb' 0 32

/-- Lane i of a beat's data part. -/
def laneOf (b : Beat) (i : Nat) : Byte := lane (dataOf b) i

/-- The request beat with the given OPC and data part, `(OPC << 32) | data` (R60). -/
def packRequest (opc : Byte) (d : Data) : Beat := opc.setWidth 40 <<< 32 ||| d.setWidth 40

/-- RSV, bits [39:38] of a response beat (R67). -/
def rspRsv (r : Beat) : BitVec 2 := r.extractLsb' 38 2

/-- ILL, bit [37] of a response beat (R67). -/
def rspIll (r : Beat) : Bool := r.getLsbD 37

/-- DONE, bit [36] of a response beat (R67). -/
def rspDone (r : Beat) : Bool := r.getLsbD 36

/-- PERR, bit [35] of a response beat (R67). -/
def rspPerr (r : Beat) : Bool := r.getLsbD 35

/-- LEN, bits [34:32] of a response beat (R67). -/
def rspLen (r : Beat) : BitVec 3 := r.extractLsb' 32 3

/-- The response beat with the given fields, `(ILL << 37) | (DONE << 36) | (PERR << 35) | (LEN << 32) | DATA`, RSV being 0
(R67); the order of the arguments is that of the primitive `respond(LEN, DATA, PERR, DONE, ILL)` of R9. -/
def packResponse (len : BitVec 3) (data : Data) (perr done ill : Bool) : Beat :=
  (BitVec.ofBool ill).setWidth 40 <<< 37 ||| (BitVec.ofBool done).setWidth 40 <<< 36 |||
    (BitVec.ofBool perr).setWidth 40 <<< 35 ||| len.setWidth 40 <<< 32 ||| data.setWidth 40

/-- The valid lanes of a response, 0 to LEN − 1, in order (R67). -/
def rspBytes (r : Beat) : List Byte :=
  [laneOf r 0, laneOf r 1, laneOf r 2, laneOf r 3].take (rspLen r).toNat

end Sys2Proof
end

