-- ==== Sys2Proof/Syntax.lean ====
section
/-! DEFINITION. The eight requests of spec/opcode_table.json (spec/30_encoding.md R62), one constructor each, with the
operand lanes that R63 gives them. A lane that R63 calls ignored is no operand and is not part of the request. -/

namespace Sys2Proof

/-- The eight mnemonics of R62. -/
inductive Mnemonic where
  | enc1 | enc2 | enc3 | dec1 | dec2 | dec3 | dec4 | dend
  deriving DecidableEq, Repr

/-- A request: its mnemonic and its operands, operand i being lane i (R63). -/
inductive Instr where
  /-- ENC1: encode a 1-byte tail (spec/40_encoder.md R83). -/
  | enc1 (b0 : Byte)
  /-- ENC2: encode a 2-byte tail (R82). -/
  | enc2 (b0 b1 : Byte)
  /-- ENC3: encode a full 3-byte group (R81). -/
  | enc3 (b0 b1 b2 : Byte)
  /-- DEC1: report a final partial group of 1 character (spec/41_decoder.md R110). -/
  | dec1 (c0 : Byte)
  /-- DEC2: report a final partial group of 2 characters (R109). -/
  | dec2 (c0 c1 : Byte)
  /-- DEC3: report a final partial group of 3 characters (R108). -/
  | dec3 (c0 c1 c2 : Byte)
  /-- DEC4: decode one 4-character group (R107). -/
  | dec4 (c0 c1 c2 c3 : Byte)
  /-- DEND: end the current decode message and report its verdict (R111). -/
  | dend
  deriving DecidableEq, Repr

/-- The mnemonic of a request. -/
def Instr.mnemonic : Instr → Mnemonic
  | .enc1 _ => .enc1
  | .enc2 _ _ => .enc2
  | .enc3 _ _ _ => .enc3
  | .dec1 _ => .dec1
  | .dec2 _ _ => .dec2
  | .dec3 _ _ _ => .dec3
  | .dec4 _ _ _ _ => .dec4
  | .dend => .dend

/-- The operands of a request in lane order (R63). -/
def Instr.operands : Instr → List Byte
  | .enc1 b0 => [b0]
  | .enc2 b0 b1 => [b0, b1]
  | .enc3 b0 b1 b2 => [b0, b1, b2]
  | .dec1 c0 => [c0]
  | .dec2 c0 c1 => [c0, c1]
  | .dec3 c0 c1 c2 => [c0, c1, c2]
  | .dec4 c0 c1 c2 c3 => [c0, c1, c2, c3]
  | .dend => []

end Sys2Proof
end

