-- ==== Sys2Proof/WellFormed.lean ====
section
/-! DEFINITION. What is well formed: a request as syntax (spec/30_encoding.md R63), and a beat as a response
(R67, R68). -/

namespace Sys2Proof

/-- A request is well formed whatever its operands: each is 8 bits taken as they stand (R63), no value of an operand is
excluded, and the number of operands is the constructor's own (R69). So this has no check that could fail. -/
def Instr.wf : Instr → Bool
  | .enc1 _ => true
  | .enc2 _ _ => true
  | .enc3 _ _ _ => true
  | .dec1 _ => true
  | .dec2 _ _ => true
  | .dec3 _ _ _ => true
  | .dec4 _ _ _ _ => true
  | .dend => true

/-- RSV is always 0 (R67). -/
def rspRsvWf (r : Beat) : Bool := rspRsv r == 0

/-- LEN takes the values 0 to 4 only (R67). -/
def rspLenWf (r : Beat) : Bool := decide ((rspLen r).toNat ≤ 4)

/-- At most one of ILL and DONE is 1 (R67). -/
def rspStatusWf (r : Beat) : Bool := !(rspIll r && rspDone r)

/-- Lane i for i ≥ LEN is 0x00 (R67). -/
def rspLanesWf (r : Beat) : Bool :=
  (List.range 4).all fun i => decide (i < (rspLen r).toNat) || laneOf r i == 0

/-- PERR is 0 on an illegal response (R67, R133). -/
def rspIllPerrWf (r : Beat) : Bool := !(rspIll r && rspPerr r)

/-- A response with ILL, DONE or PERR carries no element: LEN is 0 (R68). -/
def rspEmptyWf (r : Beat) : Bool := !(rspIll r || rspDone r || rspPerr r) || rspLen r == 0

/-- The beat is one that R67 and R68 allow as a response. -/
def rspWf (r : Beat) : Bool :=
  rspRsvWf r && rspLenWf r && rspStatusWf r && rspLanesWf r && rspIllPerrWf r && rspEmptyWf r

end Sys2Proof
end

