-- ==== Sys2Proof/Decode.lean ====
section
/-! DEFINITION. The opcode map (spec/30_encoding.md R62), decoding a request beat, encoding a request, and the lanes a
request ignores (R63). Decoding is total: a beat is one of the eight requests, or illegal by its OPC (R64, R133). -/

namespace Sys2Proof

/-- The OPC of a mnemonic (R62). -/
def Mnemonic.opc : Mnemonic → Byte
  | .enc1 => 0x01
  | .enc2 => 0x02
  | .enc3 => 0x03
  | .dec1 => 0x11
  | .dec2 => 0x12
  | .dec3 => 0x13
  | .dec4 => 0x14
  | .dend => 0x18

/-- N, the number of operand lanes of a mnemonic (R61, R63). -/
def Mnemonic.arity : Mnemonic → Nat
  | .enc1 => 1
  | .enc2 => 2
  | .enc3 => 3
  | .dec1 => 1
  | .dec2 => 2
  | .dec3 => 3
  | .dec4 => 4
  | .dend => 0

/-- The mnemonics in the order of R62. -/
def Mnemonic.all : List Mnemonic := [.enc1, .enc2, .enc3, .dec1, .dec2, .dec3, .dec4, .dend]

/-- The mnemonic of an OPC, matched whole (R61, R62); none for the 248 illegal values. -/
def Mnemonic.ofOpc (c : Byte) : Option Mnemonic :=
  if c = 0x01 then some .enc1
  else if c = 0x02 then some .enc2
  else if c = 0x03 then some .enc3
  else if c = 0x11 then some .dec1
  else if c = 0x12 then some .dec2
  else if c = 0x13 then some .dec3
  else if c = 0x14 then some .dec4
  else if c = 0x18 then some .dend
  else none

/-- What a request beat is: one of the eight requests, or illegal, by the name of its OPC (R64, R133). -/
inductive Decoded where
  | request (i : Instr)
  | illegal (opc : Byte)
  deriving DecidableEq, Repr

/-- The request with the given mnemonic whose operands are taken from the lanes of a data part (R63). -/
def Mnemonic.withLanes (m : Mnemonic) (d : Data) : Instr :=
  match m with
  | .enc1 => .enc1 (lane d 0)
  | .enc2 => .enc2 (lane d 0) (lane d 1)
  | .enc3 => .enc3 (lane d 0) (lane d 1) (lane d 2)
  | .dec1 => .dec1 (lane d 0)
  | .dec2 => .dec2 (lane d 0) (lane d 1)
  | .dec3 => .dec3 (lane d 0) (lane d 1) (lane d 2)
  | .dec4 => .dec4 (lane d 0) (lane d 1) (lane d 2) (lane d 3)
  | .dend => .dend

/-- Decoding a request beat: OPC alone decides which request it is (R62), then the operands are taken from its
lanes (R63). -/
def decodeBeat (b : Beat) : Decoded :=
  match Mnemonic.ofOpc (opcOf b) with
  | some m => .request (m.withLanes (dataOf b))
  | none => .illegal (opcOf b)

/-- The data part of a request: operand i in lane i, ignored lanes 0x00 (R63, R69). -/
def Instr.data : Instr → Data
  | .enc1 b0 => packLanes b0 0 0 0
  | .enc2 b0 b1 => packLanes b0 b1 0 0
  | .enc3 b0 b1 b2 => packLanes b0 b1 b2 0
  | .dec1 c0 => packLanes c0 0 0 0
  | .dec2 c0 c1 => packLanes c0 c1 0 0
  | .dec3 c0 c1 c2 => packLanes c0 c1 c2 0
  | .dec4 c0 c1 c2 c3 => packLanes c0 c1 c2 c3
  | .dend => packLanes 0 0 0 0

/-- The beat of a request, as the assembler writes it (R60, R62, R69). -/
def encode (i : Instr) : Beat := packRequest i.mnemonic.opc i.data

/-- The beat with 0x00 in every lane its request ignores; an illegal beat is left as it is (R69, R72). -/
def canonicalBeat (b : Beat) : Beat :=
  match decodeBeat b with
  | .request i => encode i
  | .illegal _ => b

/-- Every lane that the beat's request ignores holds 0x00 (R63); true of an illegal beat, which assembler text writes
whole (R72). -/
def ignoredLanesZero (b : Beat) : Bool :=
  match Mnemonic.ofOpc (opcOf b) with
  | some m => (List.range 4).all fun i => decide (i < m.arity) || laneOf b i == 0
  | none => true

/-- The unit a request belongs to, and on the decoder whether it carries characters or ends the message
(R61, spec/41_decoder.md R112). -/
inductive RequestKind where
  | encoder
  | decoderData
  | decoderEnd
  deriving DecidableEq, Repr

/-- The kind of a request (R61, R112). -/
def Instr.kind : Instr → RequestKind
  | .enc1 _ => .encoder
  | .enc2 _ _ => .encoder
  | .enc3 _ _ _ => .encoder
  | .dec1 _ => .decoderData
  | .dec2 _ _ => .decoderData
  | .dec3 _ _ _ => .decoderData
  | .dec4 _ _ _ _ => .decoderData
  | .dend => .decoderEnd

/-- The kind of the request a beat is; none for an illegal beat. -/
def beatKind (b : Beat) : Option RequestKind :=
  match decodeBeat b with
  | .request i => some i.kind
  | .illegal _ => none

/-- The request the decoder reads from an instruction of `nbits` bits whose bits are `w`, numbered as
spec/opcode_table.json numbers them, which is how R60 numbers the bits of a beat. A beat is 40 bits and no other length
exists (R46, R60), so a longer instruction is none. -/
def decodeTableWord (nbits w : Nat) : Option Instr :=
  if nbits ≤ 40 then
    match decodeBeat (BitVec.ofNat 40 (w % 2 ^ nbits)) with
    | .request i => some i
    | .illegal _ => none
  else none

end Sys2Proof
end

