-- ==== Sys2Proof/Machine/Tables.lean ====
section
/-! DEFINITION. The two constant lookup tables FWD and INV (spec/10_state.md R27, R28). They are configuration, not state:
no request, reset or host action writes them (R29). -/

namespace Sys2Proof

/-- The code of the padding character `=` (R28). -/
def padCode : Byte := 0x3D

/-- FWD, indices 0 to 25: `A` to `Z` (R27). -/
def fwdUpper : List Byte :=
  [0x41, 0x42, 0x43, 0x44, 0x45, 0x46, 0x47, 0x48, 0x49, 0x4A, 0x4B, 0x4C, 0x4D,
   0x4E, 0x4F, 0x50, 0x51, 0x52, 0x53, 0x54, 0x55, 0x56, 0x57, 0x58, 0x59, 0x5A]

/-- FWD, indices 26 to 51: `a` to `z` (R27). -/
def fwdLower : List Byte :=
  [0x61, 0x62, 0x63, 0x64, 0x65, 0x66, 0x67, 0x68, 0x69, 0x6A, 0x6B, 0x6C, 0x6D,
   0x6E, 0x6F, 0x70, 0x71, 0x72, 0x73, 0x74, 0x75, 0x76, 0x77, 0x78, 0x79, 0x7A]

/-- FWD, indices 52 to 61: `0` to `9` (R27). -/
def fwdDigits : List Byte :=
  [0x30, 0x31, 0x32, 0x33, 0x34, 0x35, 0x36, 0x37, 0x38, 0x39]

/-- FWD, indices 62 and 63: `+` and `/` (R27). -/
def fwdSymbols : List Byte := [0x2B, 0x2F]

/-- FWD, 64 entries in index order (R27). -/
def fwdTable : List Byte := fwdUpper ++ fwdLower ++ fwdDigits ++ fwdSymbols

/-- A read of FWD. The table has 64 entries and an index has 6 bits, so every read is in range (spec/40_encoder.md R84)
and the default is never taken (`fwdTable_length`). -/
def fwd (i : Sixtet) : Byte := fwdTable.getD i.toNat padCode

/-- The three classes of an entry of INV (R28). -/
inductive CharClass where
  | idx (v : Sixtet)
  | pad
  | invalid
  deriving DecidableEq, Repr

/-- A read of INV, by the code ranges of R28. -/
def inv (c : Byte) : CharClass :=
  if 0x41 ≤ c ∧ c ≤ 0x5A then .idx ((c - 0x41).setWidth 6)
  else if 0x61 ≤ c ∧ c ≤ 0x7A then .idx ((c - 0x61 + 26).setWidth 6)
  else if 0x30 ≤ c ∧ c ≤ 0x39 then .idx ((c - 0x30 + 52).setWidth 6)
  else if c = 0x2B then .idx 62
  else if c = 0x2F then .idx 63
  else if c = 0x3D then .pad
  else .invalid

end Sys2Proof
end

