-- ==== Sys2Proof/Machine/Operands.lean ====
section
/-! DEFINITION. What the requests compute from their operands: the group word and its sixtets (spec/20_memory.md R43,
spec/40_encoder.md R80), the check of a character group (spec/41_decoder.md R102) and the byte join (R44, R103). -/

namespace Sys2Proof

/-- The 24-bit group word `G = (b0 << 16) | (b1 << 8) | b2` (R43). -/
def groupWord (b0 b1 b2 : Byte) : BitVec 24 :=
  b0.setWidth 24 <<< 16 ||| b1.setWidth 24 <<< 8 ||| b2.setWidth 24

/-- Sixtet k of a 24-bit word, `w[23−6k : 18−6k]`, most significant first (R43, R80). -/
def sixtetOf (w : BitVec 24) (k : Nat) : Sixtet := w.extractLsb' (18 - 6 * k) 6

/-- Character k of the encoding of a group of n bytes: the first n + 1 sixtets go through FWD, the other positions hold the
padding code (R80). -/
def encChar (n : Nat) (g : BitVec 24) (k : Nat) : Byte :=
  if k ≤ n then fwd (sixtetOf g k) else padCode

/-- The four characters of the encoding of a group of n bytes, whose word is `g`, as a data part (R80). -/
def encData (n : Nat) (g : BitVec 24) : Data :=
  packLanes (encChar n g 0) (encChar n g 1) (encChar n g 2) (encChar n g 3)

/-- The results of the group check (R102). -/
inductive GroupCheck where
  | fail
  | full
  | pad1
  | pad2
  deriving DecidableEq, Repr

/-- The group check on the four classes of a group's characters, test by test in the order of R102. -/
def checkClasses (k0 k1 k2 k3 : CharClass) : GroupCheck :=
  if k0 = .invalid ∨ k1 = .invalid ∨ k2 = .invalid ∨ k3 = .invalid then .fail
  else if k0 = .pad ∨ k1 = .pad then .fail
  else if k2 = .pad ∧ k3 ≠ .pad then .fail
  else if k2 = .pad ∧ k3 = .pad then .pad2
  else if k2 ≠ .pad ∧ k3 = .pad then .pad1
  else .full

/-- `check4`: each character is classified by one read of INV (R101, R102). -/
def check4 (c0 c1 c2 c3 : Byte) : GroupCheck := checkClasses (inv c0) (inv c1) (inv c2) (inv c3)

/-- The value `v_i` a character contributes to the byte join: 0 where it is PAD (R103). The join is computed only for a
group that `check4` did not fail, which holds no INVALID character; the 0 given there reaches no result. -/
def CharClass.value : CharClass → Sixtet
  | .idx v => v
  | .pad => 0
  | .invalid => 0

/-- The 24-bit word `W = (s0 << 18) | (s1 << 12) | (s2 << 6) | s3` (R44, R103). -/
def joinWord (s0 s1 s2 s3 : Sixtet) : BitVec 24 :=
  s0.setWidth 24 <<< 18 ||| s1.setWidth 24 <<< 12 ||| s2.setWidth 24 <<< 6 ||| s3.setWidth 24

/-- Byte k of a 24-bit word in message order: `W[23:16]`, `W[15:8]`, `W[7:0]` (R44, R103). -/
def byteOf (w : BitVec 24) (k : Nat) : Byte := w.extractLsb' (16 - 8 * k) 8

/-- The bytes of a joined word that a checked group produces (R103); a failed group produces none. -/
def bytesOf : GroupCheck → BitVec 24 → List Byte
  | .full, w => [byteOf w 0, byteOf w 1, byteOf w 2]
  | .pad1, w => [byteOf w 0, byteOf w 1]
  | .pad2, w => [byteOf w 0]
  | .fail, _ => []

/-- The joined word of four characters (R103). -/
def charsWord (c0 c1 c2 c3 : Byte) : BitVec 24 :=
  joinWord (inv c0).value (inv c1).value (inv c2).value (inv c3).value

/-- `join4`: the bytes of a group whose check gave `r` (R103). -/
def join4 (r : GroupCheck) (c0 c1 c2 c3 : Byte) : List Byte := bytesOf r (charsWord c0 c1 c2 c3)

end Sys2Proof
end

