-- ==== Sys2Proof/Config.lean ====
section
/-! DEFINITION. The parameters the spec leaves open (spec/00_scope.md R7; spec/93 U5 to U8). Each is an opaque
constant: nothing in Lean knows its value, so a claim that is proved holds whatever it is. A depth or a count that the
spec bounds below by 1 is one more than an opaque number. -/

namespace Sys2Proof

/-- `REQ_DEPTH` less one (R7: `REQ_DEPTH` ≥ 1). -/
opaque Config.reqDepthLessOne : Nat

/-- `RSP_DEPTH` less one (R7: `RSP_DEPTH` ≥ 1). -/
opaque Config.rspDepthLessOne : Nat

/-- `INSTANCES` less one (R7: `INSTANCES` ≥ 1). -/
opaque Config.instancesLessOne : Nat

/-- `LATENCY` (R7): finite and unobservable; no rule and no definition of this model reads it. -/
opaque Config.latency : Nat

/-- `MMIO_BASE` (R7, R41): outside the spec; no rule and no definition of this model reads it. -/
opaque Config.mmioBase : Nat

/-- `REQ_DEPTH`: the number of accepted but unprocessed requests the block can hold (R7, R31). -/
def Config.reqDepth : Nat := Config.reqDepthLessOne + 1

/-- `RSP_DEPTH`: the number of produced but undelivered responses the block can hold (R7, R31). -/
def Config.rspDepth : Nat := Config.rspDepthLessOne + 1

/-- `INSTANCES`: the number of independent block instances on the platform (R7). -/
def Config.instanceCount : Nat := Config.instancesLessOne + 1

end Sys2Proof
end

