-- ==== Sys2Proof/Machine/State.lean ====
section
/-! DEFINITION. The state of one block instance (spec/10_state.md R20), the reasons a step can stop, and the state after
reset (spec/70_reset_and_hazards.md R150). -/

namespace Sys2Proof.Machine

/-- `DEC_STATE` (R23). The fourth code 0b11 is unreachable, and R33 asks a model to make it unrepresentable. -/
inductive DecState where
  /-- 0b00: only unpadded, valid groups so far; another group or a DEND may follow. -/
  | opened
  /-- 0b01: a valid padded group was accepted; only DEND may follow without error. -/
  | closed
  /-- 0b10: the message has violated a validation rule. -/
  | err
  deriving DecidableEq, Repr

/-- The 2-bit encoding of `DEC_STATE` (R23). -/
def DecState.code : DecState → BitVec 2
  | .opened => 0b00#2
  | .closed => 0b01#2
  | .err => 0b10#2

/-- The state of one block instance, which R20 lists: the decoder state, the request queue and the response queue, each
queue oldest first. -/
structure State where
  /-- `DEC_STATE` (R23). -/
  decState : DecState
  /-- Accepted requests not yet executed, oldest first (R31). -/
  reqQueue : List Beat
  /-- Produced responses not yet taken by the host, oldest first (R31). -/
  rspQueue : List Beat
  deriving DecidableEq, Repr

/-- The states in which the block has no step until the host moves (spec/70 R157; spec/93 U6). No request raises either
one: they are raised by `fetch` alone, before a request is looked at, and leave the state as it is. -/
inductive Fault where
  /-- There is no request to execute: the block waits for the host to issue one. Raised by `fetch`. Safe: the machine stops
  where the hardware waits. -/
  | requestQueueEmpty
  /-- A request waits, but the response queue has no room for its response: only the host's taking a response lifts the
  stall (R157, duty H7). Raised by `fetch`. Safe: the machine stops where the hardware waits. -/
  | responseQueueFull
  deriving DecidableEq, Repr

/-- The reasons for which a request has no meaning. -/
inductive Refusal where
  /-- A request whose meaning the model does not give. Raised by no request: every arm of `exec` has its meaning. Safe. -/
  | notModelled (mnemonic : String)
  deriving DecidableEq, Repr

/-- The state after reset (R150): `DEC_STATE` is OPEN, both queues are empty. -/
def State.reset : State where
  decState := .opened
  reqQueue := []
  rspQueue := []

end Sys2Proof.Machine
end

