-- ==== Sys2Proof/Machine/Flags.lean ====
section
/-! DEFINITION. The status bits of a response. The block stores no flags (spec/10_state.md R30): PERR is computed from
`DEC_STATE` when a decoder request responds (spec/41_decoder.md R111, R116). -/

namespace Sys2Proof.Machine

/-- `DEC_STATE = ERR`: the PERR bit of a decoder data response, taken after the request (R116), and the verdict of a DEND,
taken before it writes OPEN (R111). -/
def perrOf : DecState → Bool
  | .opened => false
  | .closed => false
  | .err => true

end Sys2Proof.Machine
end

