-- ==== Sys2Proof/Machine/Ops.lean ====
section
/-! DEFINITION. The operations the meanings share: answering a request, raising ParseError and returning from it, and
taking the next request off the queue. -/

namespace Sys2Proof.Machine

/-- `respond(LEN, DATA, PERR, DONE, ILL)`: forms the single response of the request and queues it behind the earlier ones
(spec/00_scope.md R9, spec/20_memory.md R49). -/
def respond (s : State) (len : BitVec 3) (data : Data) (perr done ill : Bool) : State :=
  { s with rspQueue := s.rspQueue ++ [packResponse len data perr done ill] }

/-- `DEC_STATE <- d` (R9). -/
def setDecState (s : State) (d : DecState) : State := { s with decState := d }

/-- The answer of an encoder request: four characters, no status bit (spec/40_encoder.md R80). -/
def respondChars (s : State) (data : Data) : State := respond s 4 data false false false

/-- The answer of an accepted decoder group: its bytes in lanes 0 upwards, zero above them (spec/41_decoder.md R107). -/
def respondBytes (s : State) (bs : List Byte) : State :=
  respond s (BitVec.ofNat 3 bs.length) (packBytes bs) false false false

/-- `raise ParseError()`, the block's one exception: `DEC_STATE <- ERR`, and the request's own response has LEN = 0,
DATA = 0, PERR = 1 (spec/60_exceptions.md R131). Nothing else is saved and control does not move (R136). -/
def raiseParseError (s : State) : State := respond (setDecState s .err) 0 0 true false false

/-- The answer to a decoder data request that finds `DEC_STATE = ERR`: no bytes, PERR = 1, the state stays ERR
(spec/41_decoder.md R106). -/
def respondSuppressed (s : State) : State := respond s 0 0 true false false

/-- The one way back from ParseError but reset, and the end of a message in every state: the verdict is reported with
DONE = 1 and `DEC_STATE <- OPEN` (spec/41_decoder.md R111, spec/60_exceptions.md R137). -/
def endMessage (s : State) : State :=
  respond (setDecState s .opened) 0 0 (perrOf s.decState) true false

/-- The answer to an illegal request: ILL = 1 and all else 0, no state written (spec/60_exceptions.md R133). -/
def respondIllegal (s : State) : State := respond s 0 0 false false true

/-- A final partial group of 1 to 3 characters: ParseError, or the suppressed answer where the message has failed already
(spec/41_decoder.md R108 to R110). -/
def partialGroup (s : State) : State :=
  match s.decState with
  | .err => respondSuppressed s
  | .opened => raiseParseError s
  | .closed => raiseParseError s

/-- The response queue has room for one more response (spec/70_reset_and_hazards.md R157). -/
def rspHasRoom (s : State) : Bool := decide (s.rspQueue.length < Config.rspDepth)

/-- The request queue has room for one more request (R157). -/
def reqHasRoom (s : State) : Bool := decide (s.reqQueue.length < Config.reqDepth)

/-- The block accepts a request: its request queue has room (R157), and its response queue is not full, because "when the
response queue is full the block stops accepting requests" (R154, duty H7). -/
def accepting (s : State) : Bool := reqHasRoom s && rspHasRoom s

/-- Taking the oldest request off the request queue, to execute it: the beat and the state without it. The block executes a
request only when there is one and the response queue has room for its response (R157). -/
def fetch (s : State) : Except Fault (Beat × State) :=
  match s.reqQueue with
  | [] => .error .requestQueueEmpty
  | b :: rest => if rspHasRoom s then .ok (b, { s with reqQueue := rest }) else .error .responseQueueFull

/-- The state whose next request to execute is `b`: `b` stands at the head of the request queue in place of the request that
stood there, and the host has taken every response, because the only response queue known to have room whatever
`RSP_DEPTH` is, is the empty one (R7, R157). -/
def placeRequest (s : State) (b : Beat) : State :=
  { s with reqQueue := b :: s.reqQueue.tail, rspQueue := [] }

end Sys2Proof.Machine
end

