-- ==== Sys2Proof/Machine/Decoder.lean ====
section
/-! DEFINITION. The decoder requests and the validation FSM (spec/41_decoder.md R105 to R111). -/

namespace Sys2Proof.Machine

/-- DEC1: the string length is ≡ 1 (mod 4); the character has no effect (R110). -/
def execDec1 (_c0 : Byte) (s : State) : Host.Outcome State Fault Refusal := .next (partialGroup s)

/-- DEC2: the string length is ≡ 2 (mod 4); the characters have no effect (R109). -/
def execDec2 (_c0 _c1 : Byte) (s : State) : Host.Outcome State Fault Refusal := .next (partialGroup s)

/-- DEC3: the string length is ≡ 3 (mod 4); the characters have no effect (R108). -/
def execDec3 (_c0 _c1 _c2 : Byte) (s : State) : Host.Outcome State Fault Refusal := .next (partialGroup s)

/-- A group in an OPEN message: a failed check raises ParseError, a padded group closes the message, and an accepted group
answers its bytes (R107). -/
def openGroup (c0 c1 c2 c3 : Byte) (s : State) : State :=
  match check4 c0 c1 c2 c3 with
  | .fail => raiseParseError s
  | .full => respondBytes s (join4 .full c0 c1 c2 c3)
  | .pad1 => respondBytes (setDecState s .closed) (join4 .pad1 c0 c1 c2 c3)
  | .pad2 => respondBytes (setDecState s .closed) (join4 .pad2 c0 c1 c2 c3)

/-- DEC4: suppressed in ERR, ParseError in CLOSED, checked and joined in OPEN (R107). -/
def execDec4 (c0 c1 c2 c3 : Byte) (s : State) : Host.Outcome State Fault Refusal :=
  match s.decState with
  | .err => .next (respondSuppressed s)
  | .closed => .next (raiseParseError s)
  | .opened => .next (openGroup c0 c1 c2 c3 s)

/-- DEND: reports the verdict and starts a new message (R111). -/
def execDend (s : State) : Host.Outcome State Fault Refusal := .next (endMessage s)

/-- An illegal request, which is no row of the opcode table: the ILL response (spec/60_exceptions.md R133). -/
def execIllegal (s : State) : Host.Outcome State Fault Refusal := .next (respondIllegal s)

end Sys2Proof.Machine
end

