-- ==== Sys2Proof/Machine/Encoder.lean ====
section
/-! DEFINITION. The encoder requests (spec/40_encoder.md R80 to R83). They read and write no state but the response
queue (spec/10_state.md R26) and never fail. -/

namespace Sys2Proof.Machine

/-- ENC1: a 1-byte tail, the two missing bytes counting as zero (R80, R83). -/
def execEnc1 (b0 : Byte) (s : State) : Host.Outcome State Fault Refusal :=
  .next (respondChars s (encData 1 (groupWord b0 0 0)))

/-- ENC2: a 2-byte tail, the missing byte counting as zero (R80, R82). -/
def execEnc2 (b0 b1 : Byte) (s : State) : Host.Outcome State Fault Refusal :=
  .next (respondChars s (encData 2 (groupWord b0 b1 0)))

/-- ENC3: a full 3-byte group (R80, R81). -/
def execEnc3 (b0 b1 b2 : Byte) (s : State) : Host.Outcome State Fault Refusal :=
  .next (respondChars s (encData 3 (groupWord b0 b1 b2)))

end Sys2Proof.Machine
end

