-- ==== Sys2Proof/Machine/Dispatch.lean ====
section
/-! DEFINITION. Dispatch: one arm per request of the opcode table (spec/30_encoding.md R62). -/

namespace Sys2Proof.Machine

/-- The effect of a request on the state from which it has been taken off the request queue. -/
def exec (i : Instr) (s : State) : Host.Outcome State Fault Refusal :=
  match i with
  | .enc1 b0 => Sys2Proof.Machine.execEnc1 b0 s
  | .enc2 b0 b1 => Sys2Proof.Machine.execEnc2 b0 b1 s
  | .enc3 b0 b1 b2 => Sys2Proof.Machine.execEnc3 b0 b1 b2 s
  | .dec1 c0 => Sys2Proof.Machine.execDec1 c0 s
  | .dec2 c0 c1 => Sys2Proof.Machine.execDec2 c0 c1 s
  | .dec3 c0 c1 c2 => Sys2Proof.Machine.execDec3 c0 c1 c2 s
  | .dec4 c0 c1 c2 c3 => Sys2Proof.Machine.execDec4 c0 c1 c2 c3 s
  | .dend => Sys2Proof.Machine.execDend s

end Sys2Proof.Machine
end

