-- ==== Sys2Proof/Machine/Step.lean ====
section
/-! DEFINITION. One step of the block (spec/00_scope.md R15): it takes one request beat, updates `DEC_STATE` as the
request's rule says, and appends one response beat. -/

namespace Sys2Proof.Machine

/-- One step. The order of the checks is that of spec/60_exceptions.md R134: whether there is a request to execute and room
for its response, then an illegal OPC, then the request's own rule. -/
def step (s : State) : Host.Outcome State Fault Refusal :=
  match fetch s with
  | .error f => .fault f
  | .ok (b, s') =>
    match decodeBeat b with
    | .request i => exec i s'
    | .illegal _ => execIllegal s'

/-- The state `s` with the beat whose bits are the low `nbits` bits of `w` placed where `step` takes its next request. -/
def State.withFetchWord (s : State) (nbits w : Nat) : State :=
  placeRequest s (BitVec.ofNat 40 (w % 2 ^ nbits))

end Sys2Proof.Machine
end

