-- ==== Sys2Proof/Machine/Assembler.lean ====
section
/-! DEFINITION. The assembler syntax (spec/30_encoding.md R69) and the disassembly (R72): assembler lines as data, the text
of a line read and written, a line assembled to its beat, and a beat disassembled. -/

namespace Sys2Proof

/-- An operand as it is written (R69). -/
inductive Operand where
  /-- A hex literal `0xHH`. -/
  | hex (v : Byte)
  /-- A decimal literal. -/
  | dec (v : Nat)
  /-- A quoted character, by its code. -/
  | quoted (code : Nat)
  deriving DecidableEq, Repr

/-- One line of assembler text (R69). -/
inductive AsmLine where
  /-- Nothing but a comment. -/
  | blank
  /-- A mnemonic and its operands. -/
  | request (m : Mnemonic) (args : List Operand)
  /-- The shorthand `DECn "cccc"`, by the codes of its characters. -/
  | requestString (m : Mnemonic) (codes : List Nat)
  /-- `.beat 0xOO_DDDDDDDD`. -/
  | beat (opc : Byte) (data : Data)
  deriving DecidableEq, Repr

/-- What is wrong with a line. -/
inductive AsmError where
  /-- The text is no line of the syntax. -/
  | badText
  /-- The operand count is not n (R69: "Any other count is an assembly error"). -/
  | operandCount
  /-- An operand has a form or a value its place does not allow. -/
  | badOperand
  deriving DecidableEq, Repr

/-- The mnemonic belongs to the encoder unit, whose operands are bytes and not characters (R61, R69). -/
def Mnemonic.takesBytes : Mnemonic → Bool
  | .enc1 => true
  | .enc2 => true
  | .enc3 => true
  | .dec1 => false
  | .dec2 => false
  | .dec3 => false
  | .dec4 => false
  | .dend => false

/-- A quoted ASCII character stands for its code (R69). -/
def quotedValue (code : Nat) : Option Byte := if code < 128 then some (BitVec.ofNat 8 code) else none

/-- The value of an operand: a byte operand may be hex, decimal 0 to 255 or quoted; a character operand may be quoted or a
hex code literal (R69). -/
def operandValue (m : Mnemonic) : Operand → Option Byte
  | .hex v => some v
  | .dec v => if m.takesBytes ∧ v ≤ 255 then some (BitVec.ofNat 8 v) else none
  | .quoted code => quotedValue code

/-- The values of a list, or none if one of them has none. -/
def allSome : List (Option Byte) → Option (List Byte)
  | [] => some []
  | none :: _ => none
  | some b :: rest =>
    match allSome rest with
    | some bs => some (b :: bs)
    | none => none

/-- The beat of a mnemonic with the given operand values: ignored lanes 0x00, any other count an error (R69). -/
def assembleValues (m : Mnemonic) (vals : List (Option Byte)) : Except AsmError (Option Beat) :=
  if vals.length = m.arity then
    match allSome vals with
    | some bs => .ok (some (encode (m.withLanes (packBytes bs))))
    | none => .error .badOperand
  else .error .operandCount

/-- The string shorthand exists for DEC1 to DEC4 (R69). -/
def Mnemonic.takesString : Mnemonic → Bool
  | .enc1 => false
  | .enc2 => false
  | .enc3 => false
  | .dec1 => true
  | .dec2 => true
  | .dec3 => true
  | .dec4 => true
  | .dend => false

/-- Assembling a line: its beat, or none for a line that holds no request (R69). -/
def assemble : AsmLine → Except AsmError (Option Beat)
  | .blank => .ok none
  | .request m args => assembleValues m (args.map (operandValue m))
  | .requestString m codes =>
    if m.takesString then assembleValues m (codes.map quotedValue) else .error .badOperand
  | .beat opc data => .ok (some (packRequest opc data))

/-- Disassembling a beat: the mnemonic and the lanes it uses as hex codes in lane order, or the whole beat where the OPC is
illegal (R72). -/
def disassemble (b : Beat) : AsmLine :=
  match decodeBeat b with
  | .request i => .request i.mnemonic (i.operands.map .hex)
  | .illegal opc => .beat opc (dataOf b)

/-- A mnemonic as it is written (R62). -/
def Mnemonic.text : Mnemonic → List Char
  | .enc1 => ['E', 'N', 'C', '1']
  | .enc2 => ['E', 'N', 'C', '2']
  | .enc3 => ['E', 'N', 'C', '3']
  | .dec1 => ['D', 'E', 'C', '1']
  | .dec2 => ['D', 'E', 'C', '2']
  | .dec3 => ['D', 'E', 'C', '3']
  | .dec4 => ['D', 'E', 'C', '4']
  | .dend => ['D', 'E', 'N', 'D']

/-- The directive `.beat` as it is written (R69). -/
def beatText : List Char := ['.', 'b', 'e', 'a', 't']

/-- The character of a hex digit. -/
def hexChar (d : Nat) : Char := if d < 10 then Char.ofNat (0x30 + d) else Char.ofNat (0x37 + d)

/-- The n low hex digits of a number, the highest first. -/
def hexChars : Nat → Nat → List Char
  | 0, _ => []
  | n + 1, v => hexChars n (v / 16) ++ [hexChar (v % 16)]

/-- The digits of a number below 1000 in decimal, the highest first. -/
def decChars (v : Nat) : List Char :=
  if v < 10 then [hexChar v]
  else if v < 100 then [hexChar (v / 10), hexChar (v % 10)]
  else [hexChar (v / 100), hexChar (v / 10 % 10), hexChar (v % 10)]

/-- The text of an operand (R69). -/
def Operand.text : Operand → List Char
  | .hex v => ['0', 'x'] ++ hexChars 2 v.toNat
  | .dec v => decChars v
  | .quoted code => [Char.ofNat 0x27, Char.ofNat code, Char.ofNat 0x27]

/-- The text of an operand list: a comma and a space between two operands (R69). -/
def operandsText : List Operand → List Char
  | [] => []
  | [o] => o.text
  | o :: p :: rest => o.text ++ [',', ' '] ++ operandsText (p :: rest)

/-- The text of a line (R69, R72). -/
def AsmLine.text : AsmLine → List Char
  | .blank => []
  | .request m [] => m.text
  | .request m (o :: rest) => m.text ++ [' '] ++ operandsText (o :: rest)
  | .requestString m codes =>
    m.text ++ [' ', Char.ofNat 0x22] ++ codes.map Char.ofNat ++ [Char.ofNat 0x22]
  | .beat opc data =>
    beatText ++ [' ', '0', 'x'] ++ hexChars 2 opc.toNat ++ ['_'] ++ hexChars 8 data.toNat

/-- The tokens of a line of text. -/
inductive Token where
  | word (cs : List Char)
  | comma
  | quoted (code : Nat)
  | str (codes : List Nat)
  deriving DecidableEq, Repr

/-- A character of a mnemonic, a directive or a literal. -/
def isWordChar (c : Char) : Bool :=
  decide (0x30 ≤ c.toNat ∧ c.toNat ≤ 0x39) || decide (0x41 ≤ c.toNat ∧ c.toNat ≤ 0x5A) ||
    decide (0x61 ≤ c.toNat ∧ c.toNat ≤ 0x7A) || decide (c.toNat = 0x2E) || decide (c.toNat = 0x5F)

/-- A character of a string, that is, any but the double quote. -/
def isStringChar (c : Char) : Bool := decide (c.toNat ≠ 0x22)

/-- The tokens of a text, with fuel of at least one more than its length. A comment runs from `;` to the end of the
line (R69). -/
def lex : Nat → List Char → Option (List Token)
  | 0, _ => none
  | _ + 1, [] => some []
  | n + 1, c :: cs =>
    if c.toNat = 0x3B then some []
    else if c.toNat = 0x20 ∨ c.toNat = 0x09 then lex n cs
    else if c.toNat = 0x2C then (lex n cs).map (Token.comma :: ·)
    else if c.toNat = 0x27 then
      match cs with
      | q :: e :: rest => if e.toNat = 0x27 then (lex n rest).map (Token.quoted q.toNat :: ·) else none
      | _ => none
    else if c.toNat = 0x22 then
      match cs.dropWhile isStringChar with
      | _ :: rest => (lex n rest).map (Token.str ((cs.takeWhile isStringChar).map Char.toNat) :: ·)
      | [] => none
    else if isWordChar c then
      (lex n (cs.dropWhile isWordChar)).map (Token.word (c :: cs.takeWhile isWordChar) :: ·)
    else none

/-- The value of a decimal digit. -/
def decDigit (c : Char) : Option Nat :=
  if 0x30 ≤ c.toNat ∧ c.toNat ≤ 0x39 then some (c.toNat - 0x30) else none

/-- The value of a hex digit, of either case. -/
def hexDigit (c : Char) : Option Nat :=
  if 0x30 ≤ c.toNat ∧ c.toNat ≤ 0x39 then some (c.toNat - 0x30)
  else if 0x41 ≤ c.toNat ∧ c.toNat ≤ 0x46 then some (c.toNat - 0x37)
  else if 0x61 ≤ c.toNat ∧ c.toNat ≤ 0x66 then some (c.toNat - 0x57)
  else none

/-- The number that a list of digits writes, to a base, after the digits worth `acc`. -/
def number (base : Nat) (digit : Char → Option Nat) : Nat → List Char → Option Nat
  | acc, [] => some acc
  | acc, c :: cs =>
    match digit c with
    | some d => number base digit (acc * base + d) cs
    | none => none

/-- The operand a token writes: `0xHH`, a decimal literal or a quoted character (R69). DESIGN CHOICE (log entry 12): a
decimal literal has any number of digits, leading zeros among them, so `007` is 7; only its value is bounded, by
`operandValue`. -/
def tokenOperand : Token → Option Operand
  | .word ['0', 'x', h, l] => (number 16 hexDigit 0 [h, l]).map fun v => .hex (BitVec.ofNat 8 v)
  | .word cs => (number 10 decDigit 0 cs).map .dec
  | .quoted code => some (.quoted code)
  | .comma => none
  | .str _ => none

/-- A list of operands with a comma between two of them (R69). -/
def tokenOperands : List Token → Option (List Operand)
  | [] => some []
  | [t] => (tokenOperand t).map ([·])
  | t :: .comma :: u :: rest =>
    match tokenOperand t, tokenOperands (u :: rest) with
    | some o, some os => some (o :: os)
    | _, _ => none
  | _ => none

/-- The mnemonic that a word writes (R62). -/
def Mnemonic.ofText (cs : List Char) : Option Mnemonic := Mnemonic.all.find? fun m => m.text == cs

/-- The line that a `.beat` literal `0xOO_DDDDDDDD` writes (R69). -/
def beatLiteral (cs : List Char) : Option AsmLine :=
  match cs with
  | '0' :: 'x' :: o1 :: o0 :: '_' :: ds =>
    if ds.length = 8 then
      match number 16 hexDigit 0 [o1, o0], number 16 hexDigit 0 ds with
      | some o, some d => some (.beat (BitVec.ofNat 8 o) (BitVec.ofNat 32 d))
      | _, _ => none
    else none
  | _ => none

/-- The line that the tokens after its first word, the mnemonic, complete. -/
def requestTokens (m : Mnemonic) (ts : List Token) : Option AsmLine :=
  match ts with
  | [.str codes] => some (.requestString m codes)
  | _ => (tokenOperands ts).map (.request m)

/-- The line that a list of tokens writes (R69). -/
def tokensLine (ts : List Token) : Option AsmLine :=
  match ts with
  | [] => some .blank
  | .word w :: rest =>
    if w = beatText then
      match rest with
      | [.word lit] => beatLiteral lit
      | _ => none
    else
      match Mnemonic.ofText w with
      | some m => requestTokens m rest
      | none => none
  | _ => none

/-- Reading a line of text (R69). -/
def parseLine (t : List Char) : Except AsmError AsmLine :=
  match lex (t.length + 1) t with
  | none => .error .badText
  | some ts =>
    match tokensLine ts with
    | some l => .ok l
    | none => .error .badText

/-- Assembling a line of text to its beat (R69). -/
def assembleText (t : List Char) : Except AsmError (Option Beat) :=
  match parseLine t with
  | .ok l => assemble l
  | .error e => .error e

end Sys2Proof
end

