-- ==== Sys2Proof/Machine/HostPort.lean ====
section
/-! DEFINITION. The host's side of the request/response interface (spec/70_reset_and_hazards.md R151, R153, R157): issuing
a request, taking a response, asserting reset; and the moves of host and block together, in any order. -/

namespace Sys2Proof.Machine

/-- The host issues a request: it is accepted behind the earlier ones when the block is accepting, and waits (none)
while the request queue or the response queue is full (R31, R157, duty H7 of R154; DEDUCED, log entry 20). -/
def issue (b : Beat) (s : State) : Option State :=
  if accepting s then some { s with reqQueue := s.reqQueue ++ [b] } else none

/-- The host takes the oldest response; none while no response is queued (R31, R157). -/
def take (s : State) : Option (Beat × State) :=
  match s.rspQueue with
  | [] => none
  | r :: rest => some (r, { s with rspQueue := rest })

/-- Reset discards all work in flight, whatever the state was (R150, R151). No request can be presented under reset (R153),
so reset is one atomic move. -/
def assertReset (_s : State) : State := State.reset

/-- The moves of the host and of the block. -/
inductive Move where
  | issue (b : Beat)
  | execute
  | take
  | assertReset
  deriving DecidableEq, Repr

/-- One block and what its host has seen since reset: the requests accepted and the responses taken, oldest first. The two
lists are kept for stating claims only; they are no state of the block (spec/10_state.md R22). -/
structure Session where
  state : State
  accepted : List Beat
  taken : List Beat
  deriving DecidableEq, Repr

/-- A session that begins in the given state. -/
def Session.start (s : State) : Session := { state := s, accepted := [], taken := [] }

/-- One move of a session; none where the one that moves has to wait. After a reset the host treats every request whose
response it has not taken as never executed (R151), and a new session begins. -/
def Session.move (m : Move) (h : Session) : Option Session :=
  match m with
  | .issue b =>
    match issue b h.state with
    | some s => some { h with state := s, accepted := h.accepted ++ [b] }
    | none => none
  | .execute =>
    match step h.state with
    | .next s => some { h with state := s }
    | .fault _ => none
    | .refused _ => none
  | .take =>
    match take h.state with
    | some (r, s) => some { h with state := s, taken := h.taken ++ [r] }
    | none => none
  | .assertReset => some (Session.start (assertReset h.state))

/-- A sequence of moves; none where one of them has to wait. -/
def Session.run : List Move → Session → Option Session
  | [], h => some h
  | m :: ms, h =>
    match h.move m with
    | some h' => Session.run ms h'
    | none => none

/-- One request and its response, for a host that waits for each: it issues the request, the block executes it, the host
takes the response. On a block with empty queues the response taken is the request's own. -/
def transact (b : Beat) (s : State) : Option (Beat × State) :=
  match issue b s with
  | none => none
  | some s1 =>
    match step s1 with
    | .next s2 => take s2
    | .fault _ => none
    | .refused _ => none

/-- A request stream served one request at a time: the responses, the j-th being that of the j-th request
(spec/20_memory.md R49), and the state at the end. -/
def serve : List Beat → State → Option (List Beat × State)
  | [], s => some ([], s)
  | b :: bs, s =>
    match transact b s with
    | none => none
    | some (r, s') =>
      match serve bs s' with
      | none => none
      | some (rs, t) => some (r :: rs, t)

end Sys2Proof.Machine
end

