-- ==== Sys2Proof/Machine/Fairness.lean ====
section
/-! DEFINITION. Runs that go on for ever, and the one liveness assumption of the spec: the block is fair
(spec/70_reset_and_hazards.md R156). A run pairs each point in time with a move, or with none where everything waits, and
with the session at that point. These are predicates that claims are written with; nothing here is state. -/

namespace Sys2Proof.Machine

/-- The block has a step: a request waits and there is room for its response (R157). -/
def Ready (s : State) : Prop := s.reqQueue ≠ [] ∧ s.rspQueue.length < Config.rspDepth

/-- What happens at one point of a run: a move, or nothing. -/
def Session.turn : Option Move → Session → Option Session
  | none, h => some h
  | some m, h => h.move m

/-- `act` and `σ` are a run: at each point the move of `act` happens and leads from the session of `σ` to the next. -/
def IsRun (act : Nat → Option Move) (σ : Nat → Session) : Prop :=
  ∀ n, (σ n).turn (act n) = some (σ (n + 1))

/-- The block is fair (R156): whenever it has a step, it executes a request at that point or later, unless a reset comes and
drops the request (R151). That the response is offered to the host needs nothing more: `take` can have a response from the
step that queued it on, because `LATENCY` is unobservable (spec/00_scope.md R7, R15). -/
def FairBlock (act : Nat → Option Move) (σ : Nat → Session) : Prop :=
  ∀ n, Ready (σ n).state → ∃ k, n ≤ k ∧ (act k = some .execute ∨ act k = some .assertReset)

/-- The host keeps taking responses (duty H7 of R154): whenever one is queued, it takes one at that point or later, unless a
reset comes and drops it. -/
def TakingHost (act : Nat → Option Move) (σ : Nat → Session) : Prop :=
  ∀ n, (σ n).state.rspQueue ≠ [] → ∃ k, n ≤ k ∧ (act k = some .take ∨ act k = some .assertReset)

end Sys2Proof.Machine
end

