-- ==== Sys2Proof/Machine/Message.lean ====
section
/-! DEFINITION. Whole messages: the pseudo-operations ENCSTR and DECSTR (spec/30_encoding.md R70, R71), and the result of a
decode message (spec/41_decoder.md R112). -/

namespace Sys2Proof.Machine

/-- ENCSTR: one ENC3 for every full group in order, then at most one tail request (R70). -/
def encStr : List Byte → List Instr
  | b0 :: b1 :: b2 :: rest => .enc3 b0 b1 b2 :: encStr rest
  | [b0, b1] => [.enc2 b0 b1]
  | [b0] => [.enc1 b0]
  | [] => []

/-- DECSTR: one DEC4 for every full group in order, the trailing 1 to 3 characters, then DEND (R71). -/
def decStr : List Byte → List Instr
  | c0 :: c1 :: c2 :: c3 :: rest => .dec4 c0 c1 c2 c3 :: decStr rest
  | [c0, c1, c2] => [.dec3 c0 c1 c2, .dend]
  | [c0, c1] => [.dec2 c0 c1, .dend]
  | [c0] => [.dec1 c0, .dend]
  | [] => [.dend]

/-- The beats of a list of requests, as the assembler writes them (R69). -/
def beatsOf (is : List Instr) : List Beat := is.map encode

/-- The elements of the valid lanes of responses, concatenated in response order (R67, R85). -/
def elementsOf (rs : List Beat) : List Byte := rs.flatMap rspBytes

/-- The result of a decode message (R112). -/
inductive MessageResult where
  | success (bytes : List Byte)
  | parseError
  deriving DecidableEq, Repr

/-- The results of the decode messages of a stream of requests paired with their responses, one for each DEND, where `acc`
holds the bytes that the open message's responses have carried so far (R112). Encoder and illegal requests belong to no
message, and a message whose DEND has not been issued has no result. -/
def messageResults (acc : List Byte) : List (Beat × Beat) → List MessageResult
  | [] => []
  | (q, r) :: rest =>
    match beatKind q with
    | some .decoderData => messageResults (acc ++ rspBytes r) rest
    | some .decoderEnd =>
      (if rspPerr r then .parseError else .success acc) :: messageResults [] rest
    | some .encoder => messageResults acc rest
    | none => messageResults acc rest

end Sys2Proof.Machine
end

