-- ==== Sys2Proof/Machine/Platform.lean ====
section
/-! DEFINITION. A platform of `INSTANCES` independent blocks (spec/00_scope.md R7, spec/20_memory.md R47,
spec/60_exceptions.md R140). The constant tables are common to all; no mutable state is. -/

namespace Sys2Proof.Machine

/-- The states of the platform's instances. -/
structure Platform where
  blocks : List State
  deriving DecidableEq, Repr

/-- Every instance in the state after reset. -/
def Platform.reset : Platform := { blocks := List.replicate Config.instanceCount State.reset }

/-- A move of, or at the port of, instance k; none where there is no such instance or where it has to wait. -/
def Platform.move (k : Nat) (m : Move) (p : Platform) : Option Platform :=
  match p.blocks[k]? with
  | none => none
  | some s =>
    match (Session.start s).move m with
    | none => none
    | some h => some { blocks := p.blocks.set k h.state }

end Sys2Proof.Machine
end

