-- ==== Sys2Proof/Machine/Reference.lean ====
section
/-! DEFINITION. The source's two operations on whole byte sequences and whole strings, as the rules quote them, written on
the values alone: no request, state or response occurs here. The claims about ENCSTR and DECSTR compare the block with
these. The sixtets and bytes are in the written-out form of R81 to R83 and R103, not in the form the meanings use. -/

namespace Sys2Proof

/-- The first sixtet of a group, `b0 >> 2` (spec/40_encoder.md R81). -/
def refSixtet0 (b0 : Byte) : Sixtet := (b0 >>> 2).setWidth 6

/-- The second sixtet, `((b0 & 0x3) << 4) | (b1 >> 4)` (R81). -/
def refSixtet1 (b0 b1 : Byte) : Sixtet := (((b0 &&& 0x3) <<< 4) ||| (b1 >>> 4)).setWidth 6

/-- The third sixtet, `((b1 & 0xF) << 2) | (b2 >> 6)` (R81). -/
def refSixtet2 (b1 b2 : Byte) : Sixtet := (((b1 &&& 0xF) <<< 2) ||| (b2 >>> 6)).setWidth 6

/-- The fourth sixtet, `b2 & 0x3F` (R81). -/
def refSixtet3 (b2 : Byte) : Sixtet := (b2 &&& 0x3F).setWidth 6

/-- `bytesToBase64`: full chunks of 3 bytes, then a tail of 1 or 2 bytes with its padding (R80 to R83, R85). -/
def bytesToBase64 : List Byte → List Byte
  | b0 :: b1 :: b2 :: rest =>
    fwd (refSixtet0 b0) :: fwd (refSixtet1 b0 b1) :: fwd (refSixtet2 b1 b2) :: fwd (refSixtet3 b2) :: bytesToBase64 rest
  | [b0, b1] => [fwd (refSixtet0 b0), fwd (refSixtet1 b0 b1), fwd (refSixtet2 b1 0), 0x3D]
  | [b0] => [fwd (refSixtet0 b0), fwd (refSixtet1 b0 0), 0x3D, 0x3D]
  | [] => []

/-- `Valid(s)`, the four validation rules (spec/41_decoder.md R100): the length is a multiple of 4, every character is in
the alphabet or `=`, no character before position L−2 is `=`, and a `=` at L−2 has a `=` at L−1. -/
abbrev Valid (s : List Byte) : Prop :=
  s.length % 4 = 0 ∧
  (∀ c ∈ s, inv c ≠ .invalid) ∧
  (∀ i < s.length - 2, s[i]? ≠ some 0x3D) ∧
  (2 ≤ s.length → s[s.length - 2]? = some 0x3D → s[s.length - 1]? = some 0x3D)

/-- The first byte of a group, `(v_0 << 2) | (v_1 >> 4)` (R103). -/
def refByte0 (v0 v1 : Sixtet) : Byte := ((v0.setWidth 8) <<< 2) ||| ((v1.setWidth 8) >>> 4)

/-- The second byte, `((v_1 & 0xF) << 4) | (v_2 >> 2)` (R103). -/
def refByte1 (v1 v2 : Sixtet) : Byte := (((v1.setWidth 8) &&& 0xF) <<< 4) ||| ((v2.setWidth 8) >>> 2)

/-- The third byte, `((v_2 & 0x3) << 6) | v_3` (R103). -/
def refByte2 (v2 v3 : Sixtet) : Byte := (((v2.setWidth 8) &&& 0x3) <<< 6) ||| (v3.setWidth 8)

/-- The bytes of one group of a valid string: 1 byte for `xx==`, 2 for `xxx=`, 3 otherwise (R103). -/
def refGroupBytes (c0 c1 c2 c3 : Byte) : List Byte :=
  if c2 = 0x3D then [refByte0 (inv c0).value (inv c1).value]
  else if c3 = 0x3D then
    [refByte0 (inv c0).value (inv c1).value, refByte1 (inv c1).value (inv c2).value]
  else
    [refByte0 (inv c0).value (inv c1).value, refByte1 (inv c1).value (inv c2).value,
      refByte2 (inv c2).value (inv c3).value]

/-- `base64ToBytes` on a valid string: the bytes of its groups, in order (R113). Characters after the last full group, which
a valid string does not have, give no bytes. -/
def refStringBytes : List Byte → List Byte
  | c0 :: c1 :: c2 :: c3 :: rest => refGroupBytes c0 c1 c2 c3 ++ refStringBytes rest
  | _ => []

end Sys2Proof
end

