-- ==== Sys2Proof/Safety.lean ====
section
/-! DEFINITION. What claims call a good state and a good outcome. -/

namespace Sys2Proof.Machine

/-- The invariant of a block: each queue holds at most as many beats as it is deep (spec/10_state.md R31), and every queued
response is a beat that R67 and R68 allow. -/
def Inv (s : State) : Prop :=
  s.reqQueue.length ≤ Config.reqDepth ∧
  s.rspQueue.length ≤ Config.rspDepth ∧
  ∀ r ∈ s.rspQueue, rspWf r = true

/-- Both queues are empty: the block waits, and no response is owed. -/
def quiet (s : State) : Prop := s.reqQueue = [] ∧ s.rspQueue = []

end Sys2Proof.Machine
end

