-- ==== Sys2Proof/Certificates/Slice0/Obligations.lean ====
section
/-! DEFINITION. The statements about the block, for the provers. Each docstring says which rule of spec/ it formalises. A
response is written as the beat the spec writes, `0xOO_DDDDDDDD` (spec/00_scope.md R10), or by its fields. -/

open Sys2Proof Sys2Proof.Machine

/-! ### Encoding -/

/-- Decoding the beat the encoder writes for a request gives the request back, with every operand at every value
(spec/30_encoding.md R60, R62, R63, R69). -/
def Obligations.DecodeOfEncodeIsIdentity : Prop :=
  ∀ i : Instr, i.wf = true → decodeBeat (encode i) = .request i

/-- R62: the opcode map, matched on all 8 bits of OPC whatever the lanes hold, with the operand lanes of R63; every other OPC is
illegal. -/
def Obligations.OpcodeMapIsComplete : Prop :=
  ∀ b : Beat,
    (opcOf b = 0x01 → decodeBeat b = .request (.enc1 (laneOf b 0))) ∧
    (opcOf b = 0x02 → decodeBeat b = .request (.enc2 (laneOf b 0) (laneOf b 1))) ∧
    (opcOf b = 0x03 → decodeBeat b = .request (.enc3 (laneOf b 0) (laneOf b 1) (laneOf b 2))) ∧
    (opcOf b = 0x11 → decodeBeat b = .request (.dec1 (laneOf b 0))) ∧
    (opcOf b = 0x12 → decodeBeat b = .request (.dec2 (laneOf b 0) (laneOf b 1))) ∧
    (opcOf b = 0x13 → decodeBeat b = .request (.dec3 (laneOf b 0) (laneOf b 1) (laneOf b 2))) ∧
    (opcOf b = 0x14 →
      decodeBeat b = .request (.dec4 (laneOf b 0) (laneOf b 1) (laneOf b 2) (laneOf b 3))) ∧
    (opcOf b = 0x18 → decodeBeat b = .request .dend) ∧
    (opcOf b ∉ [0x01, 0x02, 0x03, 0x11, 0x12, 0x13, 0x14, 0x18] → decodeBeat b = .illegal (opcOf b))

/-- R60: the fields of a request beat, as a number and back. -/
def Obligations.RequestBeatIsOpcAndLanes : Prop :=
  (∀ opc l0 l1 l2 l3 : Byte,
    (packRequest opc (packLanes l0 l1 l2 l3)).toNat =
      opc.toNat * 2 ^ 32 + l3.toNat * 2 ^ 24 + l2.toNat * 2 ^ 16 + l1.toNat * 2 ^ 8 + l0.toNat) ∧
  (∀ b : Beat,
    b.toNat = (opcOf b).toNat * 2 ^ 32 + (laneOf b 3).toNat * 2 ^ 24 + (laneOf b 2).toNat * 2 ^ 16 +
      (laneOf b 1).toNat * 2 ^ 8 + (laneOf b 0).toNat)

/-- Words written out from R60 and R62 decode to the requests they stand for. -/
def Obligations.WrittenOutWordsDecode : Prop :=
  decodeBeat 0x03006E614D = .request (.enc3 0x4D 0x61 0x6E) ∧
  decodeBeat 0x01FFFFFF4D = .request (.enc1 0x4D) ∧
  decodeBeat 0x1475465754 = .request (.dec4 0x54 0x57 0x46 0x75) ∧
  decodeBeat 0x1841414141 = .request .dend ∧
  decodeBeat 0x9441414141 = .illegal 0x94

/-- R63: a lane that the request ignores has no effect on any response or state. Two beats that agree on OPC and on the operand
lanes make the same step. -/
def Obligations.IgnoredLanesHaveNoEffect : Prop :=
  ∀ (b b' : Beat), opcOf b = opcOf b' →
    (∀ m : Mnemonic, opcOf b = m.opc → ∀ k < m.arity, laneOf b k = laneOf b' k) →
    ∀ (s : State) (rest : List Beat), step { s with reqQueue := b :: rest } = step { s with reqQueue := b' :: rest }

/-- R72: what the disassembly prints, and that assembling it gives the beat with its ignored lanes zero, so that it gives the
beat itself exactly when its ignored lanes are 0 already. -/
def Obligations.DisassemblyDeterminesTheBeat : Prop :=
  ∀ b : Beat,
    (∀ m : Mnemonic, opcOf b = m.opc →
      disassemble b = .request m ((List.range m.arity).map fun k => .hex (laneOf b k)) ∧
      ∃ b', assemble (disassemble b) = .ok (some b') ∧ opcOf b' = opcOf b ∧
        (∀ k < m.arity, laneOf b' k = laneOf b k) ∧ (∀ k < 4, m.arity ≤ k → laneOf b' k = 0) ∧
        (b' = b ↔ ∀ k < 4, m.arity ≤ k → laneOf b k = 0)) ∧
    ((∀ m : Mnemonic, opcOf b ≠ m.opc) →
      disassemble b = .beat (opcOf b) (dataOf b) ∧ assemble (disassemble b) = .ok (some b))

/-- R72: what the disassembly prints reads back as the line it prints: the mnemonic and its lanes as `0xHH` codes, or `.beat` with
the whole beat (R69). How a text is read where R69 leaves it open is the model's choice (log entry 12). -/
def Obligations.PrintedDisassemblyReadsBack : Prop :=
  ∀ b : Beat, parseLine (disassemble b).text = .ok (disassemble b)

/-- R69: an assembled line has its mnemonic's OPC, as many operands as the mnemonic takes, operand k in lane k, and 0x00 in the
ignored lanes; any other operand count is an error. A hex operand stands for its byte, a quoted ASCII character for its code, and
a decimal operand of an ENC for its number where that is at most 255. That a decimal operand of a DEC and a quoted character that
is not ASCII have no value is the model's choice (log entry 12). -/
def Obligations.AssemblerWritesOperandsAndZeros : Prop :=
  ∀ (m : Mnemonic) (args : List Operand),
    (args.length ≠ m.arity → assemble (.request m args) = .error .operandCount) ∧
    (∀ b : Beat, assemble (.request m args) = .ok (some b) →
      args.length = m.arity ∧ opcOf b = m.opc ∧
      (∀ k < m.arity, (args.map (operandValue m))[k]? = some (some (laneOf b k))) ∧
      (∀ k < 4, m.arity ≤ k → laneOf b k = 0)) ∧
    (∀ bs : List Byte, args.map (operandValue m) = bs.map some → bs.length = m.arity →
      ∃ b, assemble (.request m args) = .ok (some b)) ∧
    (∀ v : Byte, operandValue m (.hex v) = some v) ∧
    (∀ n : Nat, m ∈ [Mnemonic.enc1, .enc2, .enc3] → ∀ v : Byte, operandValue m (.dec n) = some v ↔ v.toNat = n) ∧
    (∀ n : Nat, m ∉ [Mnemonic.enc1, .enc2, .enc3] → operandValue m (.dec n) = none) ∧
    (∀ (code : Nat) (v : Byte), operandValue m (.quoted code) = some v ↔ v.toNat = code ∧ code < 128)

/-- R69: `DECn "cccc"` means the n character operands in order, a string of any other length is an error, and `.beat` emits the
raw beat. That the shorthand is an error for every other mnemonic is the model's choice (log entry 12). -/
def Obligations.StringShorthandAndRawBeat : Prop :=
  (∀ (m : Mnemonic) (codes : List Nat), m ∈ [Mnemonic.dec1, .dec2, .dec3, .dec4] →
    assemble (.requestString m codes) = assemble (.request m (codes.map .quoted)) ∧
    (codes.length ≠ m.arity → assemble (.requestString m codes) = .error .operandCount) ∧
    (codes.length = m.arity → (∀ c ∈ codes, c < 128) → ∃ b, assemble (.requestString m codes) = .ok (some b) ∧
      opcOf b = m.opc ∧ (∀ k < m.arity, codes[k]? = some (laneOf b k).toNat) ∧
      ∀ k < 4, m.arity ≤ k → laneOf b k = 0)) ∧
  (∀ (m : Mnemonic) (codes : List Nat), m ∉ [Mnemonic.dec1, .dec2, .dec3, .dec4] →
    assemble (.requestString m codes) = .error .badOperand) ∧
  (∀ (opc : Byte) (d : Data), ∃ b, assemble (.beat opc d) = .ok (some b) ∧ opcOf b = opc ∧ dataOf b = d) ∧
  (∀ b : Beat, assemble (.beat (opcOf b) (dataOf b)) = .ok (some b))

/-! ### One step -/

/-- The block executes the request at the head of the request queue (R15, R49, R157): when there is room for its response and
the beat decodes to the request `i`, the step is `exec i` on the state with the beat taken off the queue. -/
def Obligations.StepRunsTheDecodedRequest : Prop :=
  ∀ (s : State) (b : Beat) (rest : List Beat) (i : Instr),
    s.reqQueue = b :: rest → s.rspQueue.length < Config.rspDepth → decodeBeat b = .request i →
    step s = exec i { s with reqQueue := rest }

/-- R133: any OPC but the eight assigned ones, 248 values, answers the ILL response and writes no state, in every state. -/
def Obligations.IllegalRequestAnswersIll : Prop :=
  (∀ (s : State) (b : Beat) (rest : List Beat),
    s.reqQueue = b :: rest → s.rspQueue.length < Config.rspDepth →
    opcOf b ∉ [0x01, 0x02, 0x03, 0x11, 0x12, 0x13, 0x14, 0x18] →
    step s = .next { s with reqQueue := rest, rspQueue := s.rspQueue ++ [0x2000000000] }) ∧
  ((List.range 256).filter fun n => Mnemonic.ofOpc (BitVec.ofNat 8 n) = none).length = 248

/-- R157, and H7 of R154: when the block accepts a request, when it executes one, when the host can take a response, and that a
stall goes on until a response is taken: with a full response queue no request is accepted and none is executed, and taking
one response lets both go on. That a stall is given as a fault, and the names of the two faults, are the model's choice (log
entry 2); that the block does accept where neither rule forbids it is DEDUCED (log entry 20). -/
def Obligations.FlowControl : Prop :=
  ∀ s : State,
    (∀ b : Beat, s.reqQueue.length < Config.reqDepth → s.rspQueue.length < Config.rspDepth →
      issue b s = some { s with reqQueue := s.reqQueue ++ [b] }) ∧
    (∀ b : Beat, Config.reqDepth ≤ s.reqQueue.length → issue b s = none) ∧
    (∀ b : Beat, Config.rspDepth ≤ s.rspQueue.length → issue b s = none) ∧
    (∀ (r : Beat) (rs : List Beat), s.rspQueue = r :: rs → take s = some (r, { s with rspQueue := rs })) ∧
    (s.reqQueue = [] → step s = .fault .requestQueueEmpty) ∧
    (s.reqQueue ≠ [] → Config.rspDepth ≤ s.rspQueue.length → step s = .fault .responseQueueFull) ∧
    (s.rspQueue.length = Config.rspDepth →
      ∃ (r : Beat) (s' : State), take s = some (r, s') ∧
        (s.reqQueue ≠ [] → ∃ t, step s' = .next t) ∧
        (s.reqQueue.length < Config.reqDepth → ∀ b : Beat, ∃ t, issue b s' = some t))

/-- Whenever a request waits and there is room for its response, the block has a step (R156: the block never hangs), and no step
refuses. -/
def Obligations.ReadyBlockNeverHangs : Prop :=
  ∀ s : State, (Ready s → ∃ t, step s = .next t) ∧ ∀ r : Refusal, step s ≠ .refused r

/-- R15: a step consumes the oldest request and appends one response, and the `DEC_STATE` it leaves and the response it
appends depend on nothing but the request beat and `DEC_STATE` (R46). -/
def Obligations.StepConsumesOneAndAnswersOne : Prop :=
  (∀ s t : State, step s = .next t →
    ∃ (b : Beat) (rest : List Beat) (r : Beat),
      s.reqQueue = b :: rest ∧ t.reqQueue = rest ∧ t.rspQueue = s.rspQueue ++ [r]) ∧
  (∀ (b : Beat) (d : DecState), ∃ (d' : DecState) (r : Beat), ∀ (rest rs : List Beat),
    rs.length < Config.rspDepth →
    step { decState := d, reqQueue := b :: rest, rspQueue := rs } =
      .next { decState := d', reqQueue := rest, rspQueue := rs ++ [r] })

/-- R67: every response a step appends has the fields the rule gives. -/
def Obligations.EveryResponseHasItsFields : Prop :=
  ∀ (s t : State) (b : Beat) (rest : List Beat), s.reqQueue = b :: rest → step s = .next t →
    ∃ r : Beat, t.rspQueue = s.rspQueue ++ [r] ∧
      r.toNat = (rspIll r).toNat * 2 ^ 37 + (rspDone r).toNat * 2 ^ 36 + (rspPerr r).toNat * 2 ^ 35 +
        (rspLen r).toNat * 2 ^ 32 + (dataOf r).toNat ∧
      rspRsv r = 0 ∧
      (rspIll r = true ↔ opcOf b ∉ [0x01, 0x02, 0x03, 0x11, 0x12, 0x13, 0x14, 0x18]) ∧
      (rspDone r = true ↔ opcOf b = 0x18) ∧
      (rspPerr r = true ↔
        (opcOf b ∈ [0x11, 0x12, 0x13, 0x14] ∧ t.decState = .err) ∨ (opcOf b = 0x18 ∧ s.decState = .err)) ∧
      (rspLen r).toNat ≤ 4 ∧
      (∀ k < 4, (rspLen r).toNat ≤ k → laneOf r k = 0) ∧
      ¬ (rspIll r = true ∧ rspDone r = true)

/-- The invariant holds after every step that starts where it holds: neither queue outgrows its depth (R31), and every queued
response is a beat that R67 and R68 allow. -/
def Obligations.StepKeepsInv : Prop :=
  ∀ s t : State, Inv s → step s = .next t → Inv t

/-- The invariant holds of the reset state. -/
def Obligations.ResetMeetsInv : Prop := Inv State.reset

/-- Every move of host and block keeps the invariant: issuing a request, taking a response and reset as well as the block's
step (R31, R151, R157). -/
def Obligations.EveryMoveKeepsInv : Prop :=
  ∀ (m : Move) (h h' : Session), Inv h.state → h.move m = some h' → Inv h'.state

/-- R150: the state after reset. -/
def Obligations.ResetState : Prop :=
  ∀ s : State,
    (assertReset s).decState = .opened ∧ (assertReset s).decState.code = 0b00#2 ∧
    (assertReset s).reqQueue = [] ∧ (assertReset s).rspQueue = [] ∧ assertReset s = State.reset

/-- R151: reset drops requests not executed and responses not taken, and abandons an open message without a verdict; the new
session owes nothing, and the block waits for a request. The model's choices here are that reset is one atomic move (log entry
4), that it begins a new session, the lists of requests accepted and responses taken emptied (log entry 9), and that waiting is
given as a fault (log entry 2). -/
def Obligations.ResetDiscardsWorkInFlight : Prop :=
  ∀ h : Session, h.move .assertReset = some (Session.start State.reset) ∧
    take (assertReset h.state) = none ∧ step (assertReset h.state) = .fault .requestQueueEmpty ∧
    (assertReset h.state).decState = .opened

/-- R152: the first request accepted after reset is executed, and a first DEND reports success for the empty message. -/
def Obligations.FirstRequestAfterResetRuns : Prop :=
  ∀ b : Beat, ∃ (s t : State) (r : Beat),
    issue b State.reset = some s ∧ step s = .next t ∧ take t = some (r, { State.reset with decState := t.decState }) ∧
    (opcOf b = 0x18 → r = 0x1000000000 ∧ t.decState = .opened)

/-- What a request leaves alone when it runs: every waiting request, every response already queued, and, for an encoder request,
`DEC_STATE`. One response is appended (R24, R46, R49). -/
def Obligations.FrameOfRequests : Prop :=
  ∀ (i : Instr) (s t : State), exec i s = .next t →
    t.reqQueue = s.reqQueue ∧ (∃ r, t.rspQueue = s.rspQueue ++ [r]) ∧
    (i.kind = .encoder → t.decState = s.decState)

/-! ### Runs that go on for ever -/

/-- R156, R157: in a run of a fair block whose host keeps taking responses, every request accepted is executed and its response
reaches the host, unless a reset comes; the response is the one that serving the requests accepted up to it one at a time
gives. How fairness is put as a predicate on runs is the model's reading (log entry 5). -/
def Obligations.FairBlockAnswersEveryRequest : Prop :=
  ∀ (act : Nat → Option Move) (σ : Nat → Session) (s : State), quiet s → σ 0 = Session.start s → IsRun act σ →
    FairBlock act σ → TakingHost act σ →
    ∀ (n j : Nat) (b : Beat), (∀ k < n, act k ≠ some .assertReset) → (σ n).accepted[j]? = some b →
      (∃ k, n ≤ k ∧ act k = some .assertReset) ∨
      ∃ (k : Nat) (rs : List Beat) (t : State) (r : Beat), n ≤ k ∧
        serve ((σ n).accepted.take (j + 1)) s = some (rs, t) ∧ rs[j]? = some r ∧ (σ k).taken[j]? = some r

/-- R156: in a run of a fair block, when the response queue has room, the request that waits longest is executed: at some later
point a step takes it off the request queue and puts a response behind the earlier ones, unless a reset comes. The host need
take nothing. How fairness is put as a predicate on runs is the model's reading (log entry 5). -/
def Obligations.FairBlockExecutesWhenReady : Prop :=
  ∀ (act : Nat → Option Move) (σ : Nat → Session), IsRun act σ → FairBlock act σ →
    ∀ (n : Nat) (b : Beat) (rest : List Beat), (σ n).state.reqQueue = b :: rest →
      (σ n).state.rspQueue.length < Config.rspDepth →
      (∃ k, n ≤ k ∧ act k = some .assertReset) ∨
      ∃ (k : Nat) (later : List Beat) (r : Beat), n ≤ k ∧ act k = some .execute ∧
        (σ k).state.reqQueue = b :: rest ++ later ∧ (σ k).state.decState = (σ n).state.decState ∧
        (σ (k + 1)).state.reqQueue = rest ++ later ∧
        (σ (k + 1)).state.rspQueue = (σ k).state.rspQueue ++ [r]

/-- R157, and H7 of R154: a host that takes no response from a full response queue, and asserts no reset, makes every later
request wait for ever: no request is accepted, nothing is executed, and the session stays as it is. -/
def Obligations.UntakenResponsesStallForEver : Prop :=
  ∀ (act : Nat → Option Move) (σ : Nat → Session) (n : Nat), IsRun act σ →
    Config.rspDepth ≤ (σ n).state.rspQueue.length →
    (∀ k, n ≤ k → act k ≠ some .take ∧ act k ≠ some .assertReset) →
    ∀ k, n ≤ k → act k = none ∧ σ k = σ n

/-! ### The tables -/

/-- R27: FWD, by the ranges of its index. -/
def Obligations.ForwardTable : Prop :=
  ∀ i : Sixtet,
    (i.toNat < 26 → (fwd i).toNat = 0x41 + i.toNat) ∧
    (26 ≤ i.toNat → i.toNat < 52 → (fwd i).toNat = 0x61 + (i.toNat - 26)) ∧
    (52 ≤ i.toNat → i.toNat < 62 → (fwd i).toNat = 0x30 + (i.toNat - 52)) ∧
    (i.toNat = 62 → fwd i = 0x2B) ∧ (i.toNat = 63 → fwd i = 0x2F)

/-- R28: INV, by the ranges of its code, and that it is the inverse of FWD. -/
def Obligations.InverseTable : Prop :=
  (∀ c : Byte,
    (0x41 ≤ c.toNat → c.toNat ≤ 0x5A → inv c = .idx (BitVec.ofNat 6 (c.toNat - 0x41))) ∧
    (0x61 ≤ c.toNat → c.toNat ≤ 0x7A → inv c = .idx (BitVec.ofNat 6 (c.toNat - 0x61 + 26))) ∧
    (0x30 ≤ c.toNat → c.toNat ≤ 0x39 → inv c = .idx (BitVec.ofNat 6 (c.toNat - 0x30 + 52))) ∧
    (c = 0x2B → inv c = .idx 62) ∧ (c = 0x2F → inv c = .idx 63) ∧ (c = 0x3D → inv c = .pad) ∧
    (c.toNat ≤ 0x2A ∨ 0x2C ≤ c.toNat ∧ c.toNat ≤ 0x2E ∨ 0x3A ≤ c.toNat ∧ c.toNat ≤ 0x3C ∨
      0x3E ≤ c.toNat ∧ c.toNat ≤ 0x40 ∨ 0x5B ≤ c.toNat ∧ c.toNat ≤ 0x60 ∨ 0x7B ≤ c.toNat → inv c = .invalid)) ∧
  (∀ i : Sixtet, inv (fwd i) = .idx i)

/-- R23, R33: the codes of `DEC_STATE`, and that no state has the code 0b11. -/
def Obligations.DecStateCodes : Prop :=
  DecState.opened.code = 0b00#2 ∧ DecState.closed.code = 0b01#2 ∧ DecState.err.code = 0b10#2 ∧
  ∀ s : State, s.decState.code ≠ 0b11#2

/-! ### The encoder requests -/

/-- R81: ENC3. The four characters are those of the four sixtets of the group, in the written-out form; the output never
contains `=`. -/
def Obligations.Enc3Result : Prop :=
  (∀ b : Beat, opcOf b = 0x03 → decodeBeat b = .request (.enc3 (laneOf b 0) (laneOf b 1) (laneOf b 2))) ∧
  (∀ (b0 b1 b2 : Byte) (s : State),
    exec (.enc3 b0 b1 b2) s =
      .next { s with rspQueue := s.rspQueue ++
        [packResponse 4
          (packLanes (fwd (refSixtet0 b0)) (fwd (refSixtet1 b0 b1)) (fwd (refSixtet2 b1 b2)) (fwd (refSixtet3 b2)))
          false false false] }) ∧
  (∀ (b0 b1 b2 : Byte) (s : State),
    ∃ r, exec (.enc3 b0 b1 b2) s = .next { s with rspQueue := s.rspQueue ++ [r] } ∧ ∀ k < 4, laneOf r k ≠ 0x3D)

/-- R82: ENC2. The third sixtet is a multiple of 4, lane 3 is `=` and no other lane is. -/
def Obligations.Enc2Result : Prop :=
  (∀ b : Beat, opcOf b = 0x02 → decodeBeat b = .request (.enc2 (laneOf b 0) (laneOf b 1))) ∧
  (∀ (b0 b1 : Byte) (s : State),
    exec (.enc2 b0 b1) s =
      .next { s with rspQueue := s.rspQueue ++
        [packResponse 4 (packLanes (fwd (refSixtet0 b0)) (fwd (refSixtet1 b0 b1)) (fwd (refSixtet2 b1 0)) 0x3D)
          false false false] }) ∧
  (∀ (b0 b1 : Byte) (s : State),
    ∃ r, exec (.enc2 b0 b1) s = .next { s with rspQueue := s.rspQueue ++ [r] } ∧ laneOf r 3 = 0x3D ∧
      (∀ k < 3, laneOf r k ≠ 0x3D) ∧
      ∃ v : Sixtet, v.toNat % 4 = 0 ∧ inv (laneOf r 2) = .idx v)

/-- R83: ENC1. The second sixtet is one of 0, 16, 32, 48, and lanes 2 and 3 are `=`. -/
def Obligations.Enc1Result : Prop :=
  (∀ b : Beat, opcOf b = 0x01 → decodeBeat b = .request (.enc1 (laneOf b 0))) ∧
  (∀ (b0 : Byte) (s : State),
    exec (.enc1 b0) s =
      .next { s with rspQueue := s.rspQueue ++
        [packResponse 4 (packLanes (fwd (refSixtet0 b0)) (fwd (refSixtet1 b0 0)) 0x3D 0x3D) false false false] }) ∧
  (∀ (b0 : Byte) (s : State),
    ∃ r, exec (.enc1 b0) s = .next { s with rspQueue := s.rspQueue ++ [r] } ∧ laneOf r 2 = 0x3D ∧ laneOf r 3 = 0x3D ∧
      laneOf r 1 ∈ [0x41, 0x51, 0x67, 0x77])

/-- R26: an encoder request's response is a function of the request alone, and no state is written but the response queue. -/
def Obligations.EncoderHasNoState : Prop :=
  ∀ i : Instr, i.kind = .encoder → ∃ r : Beat,
    rspLen r = 4 ∧ rspPerr r = false ∧ rspDone r = false ∧ rspIll r = false ∧
    ∀ s : State, exec i s = .next { s with rspQueue := s.rspQueue ++ [r] }

/-- R84: the map from an encoder request to its response is injective over all three requests, and ENC3 reaches every
four-character string over the alphabet. -/
def Obligations.EncoderIsInjective : Prop :=
  (∀ (i j : Instr) (s : State), i.kind = .encoder → j.kind = .encoder → exec i s = exec j s → i = j) ∧
  (∀ v0 v1 v2 v3 : Sixtet, ∃ b0 b1 b2 : Byte, ∀ s : State,
    exec (.enc3 b0 b1 b2) s =
      .next { s with rspQueue := s.rspQueue ++
        [packResponse 4 (packLanes (fwd v0) (fwd v1) (fwd v2) (fwd v3)) false false false] })

/-- R46: ENC requests and illegal requests are idempotent: a repeated one gives the same response and leaves the state as it
was. -/
def Obligations.EncoderAndIllegalAreIdempotent : Prop :=
  ∀ (b : Beat) (s : State), quiet s → beatKind b = some .encoder ∨ beatKind b = none →
    ∃ r : Beat, serve [b, b] s = some ([r, r], s)

/-! ### The decoder requests -/

/-- R102: the group check, each outcome by its condition on the four characters. -/
def Obligations.GroupCheckOutcomes : Prop :=
  ∀ c0 c1 c2 c3 : Byte,
    (check4 c0 c1 c2 c3 = .fail ↔
      (∃ c ∈ [c0, c1, c2, c3], inv c = .invalid) ∨ c0 = 0x3D ∨ c1 = 0x3D ∨ (c2 = 0x3D ∧ c3 ≠ 0x3D)) ∧
    (check4 c0 c1 c2 c3 = .pad2 ↔
      (∃ v0 v1, inv c0 = .idx v0 ∧ inv c1 = .idx v1) ∧ c2 = 0x3D ∧ c3 = 0x3D) ∧
    (check4 c0 c1 c2 c3 = .pad1 ↔
      (∃ v0 v1 v2, inv c0 = .idx v0 ∧ inv c1 = .idx v1 ∧ inv c2 = .idx v2) ∧ c3 = 0x3D) ∧
    (check4 c0 c1 c2 c3 = .full ↔
      ∃ v0 v1 v2 v3, inv c0 = .idx v0 ∧ inv c1 = .idx v1 ∧ inv c2 = .idx v2 ∧ inv c3 = .idx v3)

/-- R107: DEC4 in each state, and in OPEN by the group it carries, with the bytes in the written-out form of R103. -/
def Obligations.Dec4Result : Prop :=
  (∀ b : Beat, opcOf b = 0x14 →
    decodeBeat b = .request (.dec4 (laneOf b 0) (laneOf b 1) (laneOf b 2) (laneOf b 3))) ∧
  (∀ (c0 c1 c2 c3 : Byte) (s : State),
    (s.decState = .err →
      exec (.dec4 c0 c1 c2 c3) s = .next { s with rspQueue := s.rspQueue ++ [0x0800000000] }) ∧
    (s.decState = .closed →
      exec (.dec4 c0 c1 c2 c3) s =
        .next { s with decState := .err, rspQueue := s.rspQueue ++ [0x0800000000] }) ∧
    (s.decState = .opened → check4 c0 c1 c2 c3 = .fail →
      exec (.dec4 c0 c1 c2 c3) s =
        .next { s with decState := .err, rspQueue := s.rspQueue ++ [0x0800000000] }) ∧
    (∀ v0 v1 v2 v3 : Sixtet, s.decState = .opened →
      inv c0 = .idx v0 → inv c1 = .idx v1 → inv c2 = .idx v2 → inv c3 = .idx v3 →
      exec (.dec4 c0 c1 c2 c3) s =
        .next { s with rspQueue := s.rspQueue ++
          [packResponse 3 (packLanes (refByte0 v0 v1) (refByte1 v1 v2) (refByte2 v2 v3) 0) false false false] }) ∧
    (∀ v0 v1 v2 : Sixtet, s.decState = .opened →
      inv c0 = .idx v0 → inv c1 = .idx v1 → inv c2 = .idx v2 → c3 = 0x3D →
      exec (.dec4 c0 c1 c2 c3) s =
        .next { s with decState := .closed, rspQueue := s.rspQueue ++
          [packResponse 2 (packLanes (refByte0 v0 v1) (refByte1 v1 v2) 0 0) false false false] }) ∧
    (∀ v0 v1 : Sixtet, s.decState = .opened →
      inv c0 = .idx v0 → inv c1 = .idx v1 → c2 = 0x3D → c3 = 0x3D →
      exec (.dec4 c0 c1 c2 c3) s =
        .next { s with decState := .closed, rspQueue := s.rspQueue ++
          [packResponse 1 (packLanes (refByte0 v0 v1) 0 0 0) false false false] }))

/-- R110, R109, R108: DEC1, DEC2 and DEC3, whatever their characters and in every state, answer PERR with no bytes and leave
`DEC_STATE` at ERR. -/
def Obligations.PartialGroupsRaiseParseError : Prop :=
  (∀ b : Beat,
    (opcOf b = 0x11 → decodeBeat b = .request (.dec1 (laneOf b 0))) ∧
    (opcOf b = 0x12 → decodeBeat b = .request (.dec2 (laneOf b 0) (laneOf b 1))) ∧
    (opcOf b = 0x13 → decodeBeat b = .request (.dec3 (laneOf b 0) (laneOf b 1) (laneOf b 2)))) ∧
  (∀ (c0 c1 c2 : Byte) (s : State),
    exec (.dec1 c0) s = .next { s with decState := .err, rspQueue := s.rspQueue ++ [0x0800000000] } ∧
    exec (.dec2 c0 c1) s = .next { s with decState := .err, rspQueue := s.rspQueue ++ [0x0800000000] } ∧
    exec (.dec3 c0 c1 c2) s = .next { s with decState := .err, rspQueue := s.rspQueue ++ [0x0800000000] })

/-- R111: DEND reports the verdict, DONE = 1, and leaves `DEC_STATE` at OPEN, in every state. -/
def Obligations.DendResult : Prop :=
  (∀ b : Beat, opcOf b = 0x18 → decodeBeat b = .request .dend) ∧
  (∀ s : State,
    (s.decState = .err →
      exec .dend s = .next { s with decState := .opened, rspQueue := s.rspQueue ++ [0x1800000000] }) ∧
    (s.decState ≠ .err →
      exec .dend s = .next { s with decState := .opened, rspQueue := s.rspQueue ++ [0x1000000000] }))

/-- R106: every decoder data request that finds ERR answers PERR with no bytes and leaves ERR. -/
def Obligations.FailedMessageIsSuppressed : Prop :=
  ∀ (i : Instr) (s : State), i.kind = .decoderData → s.decState = .err →
    exec i s = .next { s with rspQueue := s.rspQueue ++ [0x0800000000] }

/-- R105: the transitions of `DEC_STATE`; no other transition exists, and ENC and illegal requests leave it alone (R24). -/
def Obligations.DecoderTransitions : Prop :=
  ∀ (s t : State) (b : Beat) (rest : List Beat), s.reqQueue = b :: rest → step s = .next t →
    (opcOf b ∉ [0x11, 0x12, 0x13, 0x14, 0x18] → t.decState = s.decState) ∧
    (opcOf b = 0x18 → t.decState = .opened) ∧
    (opcOf b ∈ [0x11, 0x12, 0x13] → t.decState = .err) ∧
    (opcOf b = 0x14 → s.decState ≠ .opened → t.decState = .err) ∧
    (opcOf b = 0x14 → s.decState = .opened →
      (check4 (laneOf b 0) (laneOf b 1) (laneOf b 2) (laneOf b 3) = .full → t.decState = .opened) ∧
      (check4 (laneOf b 0) (laneOf b 1) (laneOf b 2) (laneOf b 3) = .pad1 → t.decState = .closed) ∧
      (check4 (laneOf b 0) (laneOf b 1) (laneOf b 2) (laneOf b 3) = .pad2 → t.decState = .closed) ∧
      (check4 (laneOf b 0) (laneOf b 1) (laneOf b 2) (laneOf b 3) = .fail → t.decState = .err))

/-- R131: exactly these requests, in exactly these conditions, raise ParseError, and the response is then PERR with no
bytes. -/
def Obligations.ParseErrorRaisedExactly : Prop :=
  ∀ (s t : State) (b : Beat) (rest : List Beat), s.reqQueue = b :: rest → step s = .next t → s.decState ≠ .err →
    (t.decState = .err ↔
      (opcOf b = 0x14 ∧ s.decState = .opened ∧ (∃ k < 4, inv (laneOf b k) = .invalid)) ∨
      (opcOf b = 0x14 ∧ s.decState = .opened ∧ (laneOf b 0 = 0x3D ∨ laneOf b 1 = 0x3D)) ∨
      (opcOf b = 0x14 ∧ s.decState = .opened ∧ laneOf b 2 = 0x3D ∧ laneOf b 3 ≠ 0x3D) ∨
      (opcOf b = 0x14 ∧ s.decState = .closed) ∨
      opcOf b ∈ [0x11, 0x12, 0x13]) ∧
    (t.decState = .err → t.rspQueue = s.rspQueue ++ [0x0800000000])

/-- R137: a session leaves ERR only by executing a DEND, which answers PERR with DONE, or by reset, and either one leaves
OPEN; a decoder data request in ERR changes nothing but the response queue. -/
def Obligations.OnlyDendOrResetClearsErr : Prop :=
  ∀ (m : Move) (h h' : Session), h.state.decState = .err → h.move m = some h' →
    (h'.state.decState ≠ .err →
      h'.state.decState = .opened ∧
      (m = .assertReset ∨
        (m = .execute ∧ ∃ (b : Beat) (rest : List Beat), h.state.reqQueue = b :: rest ∧ opcOf b = 0x18 ∧
          h'.state.rspQueue = h.state.rspQueue ++ [0x1800000000]))) ∧
    (m = .assertReset → h'.state.decState = .opened) ∧
    (∀ (b : Beat) (rest : List Beat), m = .execute → h.state.reqQueue = b :: rest → opcOf b = 0x18 →
      h'.state.decState = .opened)

/-- R24: only a decoder request or reset writes `DEC_STATE`; the host's issuing and taking do not. -/
def Obligations.OnlyDecoderRequestsWriteDecState : Prop :=
  ∀ (m : Move) (h h' : Session), h.move m = some h' → h'.state.decState ≠ h.state.decState →
    m = .assertReset ∨
    (m = .execute ∧ ∃ (b : Beat) (rest : List Beat), h.state.reqQueue = b :: rest ∧
      opcOf b ∈ [0x11, 0x12, 0x13, 0x14, 0x18])

/-- R116: PERR of a decoder data response is 1 exactly when `DEC_STATE = ERR` after the request. -/
def Obligations.PerrShowsErr : Prop :=
  ∀ (i : Instr) (s t : State), i.kind = .decoderData → exec i s = .next t →
    ∃ r : Beat, t.rspQueue = s.rspQueue ++ [r] ∧ (rspPerr r = true ↔ t.decState = .err)

/-- R104: the low 2 bits of the third sixtet of `xxx=` and the low 4 bits of the second sixtet of `xx==` are accepted with any
value and change nothing, and no other bit of the group is so: in OPEN such a group is accepted with its 2 bytes or 1 byte, and
two such groups do the same exactly when all their other bits agree. Every byte pair and every byte is the output of such a
group, so 4 strings decode to each pair and 16 to each byte. -/
def Obligations.DontCareBits : Prop :=
  (∀ (c0 c1 c2 c0' c1' c2' : Byte) (v0 v1 v2 v0' v1' v2' : Sixtet) (s : State), s.decState = .opened →
    inv c0 = .idx v0 → inv c1 = .idx v1 → inv c2 = .idx v2 →
    inv c0' = .idx v0' → inv c1' = .idx v1' → inv c2' = .idx v2' →
    (∃ r : Beat, exec (.dec4 c0 c1 c2 0x3D) s = .next { s with decState := .closed, rspQueue := s.rspQueue ++ [r] } ∧
      rspPerr r = false ∧ rspLen r = 2) ∧
    (exec (.dec4 c0 c1 c2 0x3D) s = exec (.dec4 c0' c1' c2' 0x3D) s ↔
      v0 = v0' ∧ v1 = v1' ∧ v2.toNat / 4 = v2'.toNat / 4)) ∧
  (∀ (c0 c1 c0' c1' : Byte) (v0 v1 v0' v1' : Sixtet) (s : State), s.decState = .opened →
    inv c0 = .idx v0 → inv c1 = .idx v1 → inv c0' = .idx v0' → inv c1' = .idx v1' →
    (∃ r : Beat, exec (.dec4 c0 c1 0x3D 0x3D) s = .next { s with decState := .closed, rspQueue := s.rspQueue ++ [r] } ∧
      rspPerr r = false ∧ rspLen r = 1) ∧
    (exec (.dec4 c0 c1 0x3D 0x3D) s = exec (.dec4 c0' c1' 0x3D 0x3D) s ↔
      v0 = v0' ∧ v1.toNat / 16 = v1'.toNat / 16)) ∧
  (∀ b0 b1 : Byte, ∃ (c0 c1 c2 : Byte) (v0 v1 v2 : Sixtet), inv c0 = .idx v0 ∧ inv c1 = .idx v1 ∧ inv c2 = .idx v2 ∧
    ∀ s : State, s.decState = .opened →
      exec (.dec4 c0 c1 c2 0x3D) s =
        .next { s with decState := .closed, rspQueue := s.rspQueue ++
          [packResponse 2 (packLanes b0 b1 0 0) false false false] }) ∧
  (∀ b0 : Byte, ∃ (c0 c1 : Byte) (v0 v1 : Sixtet), inv c0 = .idx v0 ∧ inv c1 = .idx v1 ∧
    ∀ s : State, s.decState = .opened →
      exec (.dec4 c0 c1 0x3D 0x3D) s =
        .next { s with decState := .closed, rspQueue := s.rspQueue ++
          [packResponse 1 (packLanes b0 0 0 0) false false false] })

/-- R115: whitespace, line breaks, URL-safe `-` and `_`, NUL and every code from 0x80 up are INVALID, and a group that holds
one of them anywhere raises ParseError. -/
def Obligations.NoCharacterIsSkipped : Prop :=
  ∀ c : Byte, c ∈ [0x09, 0x0A, 0x0D, 0x20, 0x2D, 0x5F, 0x00] ∨ 0x80 ≤ c.toNat →
    inv c = .invalid ∧
    ∀ (c0 c1 c2 c3 : Byte) (s : State), c ∈ [c0, c1, c2, c3] → s.decState = .opened →
      exec (.dec4 c0 c1 c2 c3) s =
        .next { s with decState := .err, rspQueue := s.rspQueue ++ [0x0800000000] }

/-! ### Whole messages -/

/-- R80 to R83, R85: the responses to ENCSTR give the base64 string of the bytes, of length `ceil(L/3)·4`, ending in
`(3 − L mod 3) mod 3` padding characters and holding no other. R85 names the source's `bytesToBase64` and does not define it;
the function here is the model's, written from R80 to R83 (log entry 15). -/
def Obligations.EncstrGivesBase64 : Prop :=
  ∀ (bytes : List Byte) (s : State), quiet s →
    ∃ rs : List Beat, serve (beatsOf (encStr bytes)) s = some (rs, s) ∧
      elementsOf rs = bytesToBase64 bytes ∧
      (elementsOf rs).length = (bytes.length + 2) / 3 * 4 ∧
      (∃ body : List Byte, elementsOf rs = body ++ List.replicate ((3 - bytes.length % 3) % 3) 0x3D ∧ 0x3D ∉ body) ∧
      (bytes = [] → encStr bytes = [] ∧ elementsOf rs = [])

/-- R113: DECSTR from OPEN has exactly one result, success exactly on the valid strings of R100, and then with the bytes of the
source's `base64ToBytes`: those of the string's groups, in order. -/
def Obligations.DecstrDecodesExactlyTheValidStrings : Prop :=
  ∀ (str : List Byte) (s : State), quiet s → s.decState = .opened →
    ∃ rs : List Beat, serve (beatsOf (decStr str)) s = some (rs, s) ∧
      messageResults [] ((beatsOf (decStr str)).zip rs) =
        [if Valid str then .success (refStringBytes str) else .parseError]

/-- R86: decoding what ENCSTR gave returns the bytes, with the verdict success. -/
def Obligations.EncodeThenDecodeReturnsTheBytes : Prop :=
  ∀ (bytes : List Byte) (s : State), quiet s → s.decState = .opened →
    ∃ es ds : List Beat, serve (beatsOf (encStr bytes)) s = some (es, s) ∧
      serve (beatsOf (decStr (elementsOf es))) s = some (ds, s) ∧
      messageResults [] ((beatsOf (decStr (elementsOf es))).zip ds) = [.success bytes] ∧
      ds.getLast? = some 0x1000000000

/-- R87: the encoder does not check where tails stand. A tail request that is not the last encoder request is answered as ever,
each request as it is alone; the characters then hold a `=` before the final two positions, they form no valid string, and
DECSTR of them gives ParseError. -/
def Obligations.MisplacedTailGivesNoValidString : Prop :=
  ∀ (before after : List Instr) (i j : Instr) (s : State), quiet s →
    (∀ k ∈ before ++ i :: j :: after, k.kind = .encoder) → i.mnemonic = .enc1 ∨ i.mnemonic = .enc2 →
    ∃ rs : List Beat, serve (beatsOf (before ++ i :: j :: after)) s = some (rs, s) ∧
      (∀ (n : Nat) (k : Instr) (r : Beat), (before ++ i :: j :: after)[n]? = some k → rs[n]? = some r →
        serve [encode k] s = some ([r], s)) ∧
      (∃ n < (elementsOf rs).length - 2, (elementsOf rs)[n]? = some 0x3D) ∧ ¬ Valid (elementsOf rs) ∧
      (s.decState = .opened → ∃ ds : List Beat, serve (beatsOf (decStr (elementsOf rs))) s = some (ds, s) ∧
        messageResults [] ((beatsOf (decStr (elementsOf rs))).zip ds) = [.parseError])

/-- R32, R54: encoder, decoder and illegal requests may be interleaved in any order without changing any response: the responses
to the decoder requests are those of the stream without the other requests, those to the encoder requests likewise, and so
are the results of the decode messages. Every illegal request is answered ILL (R133). -/
def Obligations.InterleavingChangesNoResponse : Prop :=
  ∀ (bs : List Beat) (s : State), quiet s →
    ∃ (rs ds es : List Beat) (t : State),
      serve bs s = some (rs, t) ∧
      serve (bs.filter fun b => beatKind b == some .decoderData || beatKind b == some .decoderEnd) s = some (ds, t) ∧
      serve (bs.filter fun b => beatKind b == some .encoder) s = some (es, s) ∧
      ((bs.zip rs).filter fun p => beatKind p.1 == some .decoderData || beatKind p.1 == some .decoderEnd) =
        (bs.filter fun b => beatKind b == some .decoderData || beatKind b == some .decoderEnd).zip ds ∧
      ((bs.zip rs).filter fun p => beatKind p.1 == some .encoder) =
        (bs.filter fun b => beatKind b == some .encoder).zip es ∧
      (∀ p ∈ bs.zip rs, beatKind p.1 = none → p.2 = 0x2000000000) ∧
      ∀ acc : List Byte, messageResults acc (bs.zip rs) =
        messageResults acc
          ((bs.filter fun b => beatKind b == some .decoderData || beatKind b == some .decoderEnd).zip ds)

/-- R136: within one message the responses have PERR = 0 up to the request that raised ParseError and PERR = 1 from it on, and
the message has failed exactly when one of them has PERR = 1. -/
def Obligations.ParseErrorIsPrecise : Prop :=
  ∀ (bs : List Beat) (s : State), quiet s → s.decState = .opened → (∀ b ∈ bs, beatKind b = some .decoderData) →
    ∃ (rs : List Beat) (t : State), serve bs s = some (rs, t) ∧ quiet t ∧ rs.length = bs.length ∧
      (∀ (j k : Nat) (r r' : Beat), j ≤ k → rs[j]? = some r → rs[k]? = some r' → rspPerr r = true → rspPerr r' = true) ∧
      (t.decState = .err ↔ ∃ r ∈ rs, rspPerr r = true)

/-- R49: strict order on one instance. However the host's and the block's moves interleave, the responses taken and queued are
those of the requests executed, in their order, as if each request had been served alone before the next; the requests not
executed are the last ones accepted. -/
def Obligations.AnyInterleavingServesInOrder : Prop :=
  ∀ (ms : List Move) (s : State) (h : Session), quiet s → Move.assertReset ∉ ms →
    Session.run ms (Session.start s) = some h →
    ∃ done : List Beat, h.accepted = done ++ h.state.reqQueue ∧
      serve done s = some (h.taken ++ h.state.rspQueue, { s with decState := h.state.decState })

/-- R47: a move at one instance never changes the state, the waiting requests or the responses of another. R47 says so of a request;
that reset of one instance leaves the others alone too is the model's choice (log entry 16). -/
def Obligations.InstancesAreIndependent : Prop :=
  ∀ (k : Nat) (m : Move) (p p' : Platform), p.move k m = some p' →
    p'.blocks.length = p.blocks.length ∧ (∀ j, j ≠ k → p'.blocks[j]? = p.blocks[j]?) ∧
    ∃ (s : State) (h : Session), p.blocks[k]? = some s ∧ (Session.start s).move m = some h ∧
      p'.blocks[k]? = some h.state
end

