-- ==== Sys2Proof/Laws/Bits.lean ====
section
/-! SUPPORT. Taking a field out of a beat, a response, a data part or a group word that was put together from its fields,
and putting it together again. -/

namespace Sys2Proof

@[simp] theorem lane_packLanes_zero (l0 l1 l2 l3 : Byte) :
    lane (packLanes l0 l1 l2 l3) 0 = l0 := by
  refine BitVec.eq_of_getLsbD_eq fun i hi => ?_
  simp only [lane, packLanes,
    BitVec.getLsbD_extractLsb', BitVec.getLsbD_or, BitVec.getLsbD_shiftLeft, BitVec.getLsbD_setWidth]
  interval_cases i <;> simp

@[simp] theorem lane_packLanes_one (l0 l1 l2 l3 : Byte) :
    lane (packLanes l0 l1 l2 l3) 1 = l1 := by
  refine BitVec.eq_of_getLsbD_eq fun i hi => ?_
  simp only [lane, packLanes,
    BitVec.getLsbD_extractLsb', BitVec.getLsbD_or, BitVec.getLsbD_shiftLeft, BitVec.getLsbD_setWidth]
  interval_cases i <;> simp

@[simp] theorem lane_packLanes_two (l0 l1 l2 l3 : Byte) :
    lane (packLanes l0 l1 l2 l3) 2 = l2 := by
  refine BitVec.eq_of_getLsbD_eq fun i hi => ?_
  simp only [lane, packLanes,
    BitVec.getLsbD_extractLsb', BitVec.getLsbD_or, BitVec.getLsbD_shiftLeft, BitVec.getLsbD_setWidth]
  interval_cases i <;> simp

@[simp] theorem lane_packLanes_three (l0 l1 l2 l3 : Byte) :
    lane (packLanes l0 l1 l2 l3) 3 = l3 := by
  refine BitVec.eq_of_getLsbD_eq fun i hi => ?_
  simp only [lane, packLanes,
    BitVec.getLsbD_extractLsb', BitVec.getLsbD_or, BitVec.getLsbD_shiftLeft, BitVec.getLsbD_setWidth]
  interval_cases i <;> simp

/-- A data part is the packing of its four lanes. -/
theorem packLanes_lanes (d : Data) :
    packLanes (lane d 0) (lane d 1) (lane d 2) (lane d 3) = d := by
  refine BitVec.eq_of_getLsbD_eq fun i hi => ?_
  simp only [lane, packLanes,
    BitVec.getLsbD_extractLsb', BitVec.getLsbD_or, BitVec.getLsbD_shiftLeft, BitVec.getLsbD_setWidth]
  interval_cases i <;> simp

@[simp] theorem opcOf_packRequest (opc : Byte) (d : Data) :
    opcOf (packRequest opc d) = opc := by
  refine BitVec.eq_of_getLsbD_eq fun i hi => ?_
  simp only [opcOf, packRequest,
    BitVec.getLsbD_extractLsb', BitVec.getLsbD_or, BitVec.getLsbD_shiftLeft, BitVec.getLsbD_setWidth]
  interval_cases i <;> simp

@[simp] theorem dataOf_packRequest (opc : Byte) (d : Data) :
    dataOf (packRequest opc d) = d := by
  refine BitVec.eq_of_getLsbD_eq fun i hi => ?_
  simp only [dataOf, packRequest,
    BitVec.getLsbD_extractLsb', BitVec.getLsbD_or, BitVec.getLsbD_shiftLeft, BitVec.getLsbD_setWidth]
  interval_cases i <;> simp

/-- A request beat is the packing of its OPC and its data part. -/
theorem packRequest_fields (b : Beat) :
    packRequest (opcOf b) (dataOf b) = b := by
  refine BitVec.eq_of_getLsbD_eq fun i hi => ?_
  simp only [opcOf, dataOf, packRequest,
    BitVec.getLsbD_extractLsb', BitVec.getLsbD_or, BitVec.getLsbD_shiftLeft, BitVec.getLsbD_setWidth]
  interval_cases i <;> simp

@[simp] theorem rspRsv_packResponse (len : BitVec 3) (data : Data) (perr done ill : Bool) :
    rspRsv (packResponse len data perr done ill) = 0 := by
  refine BitVec.eq_of_getLsbD_eq fun i hi => ?_
  simp only [rspRsv, packResponse,
    BitVec.getLsbD_extractLsb', BitVec.getLsbD_or, BitVec.getLsbD_shiftLeft, BitVec.getLsbD_setWidth]
  interval_cases i <;> simp

@[simp] theorem rspIll_packResponse (len : BitVec 3) (data : Data) (perr done ill : Bool) :
    rspIll (packResponse len data perr done ill) = ill := by
  simp [rspIll, packResponse]

@[simp] theorem rspDone_packResponse (len : BitVec 3) (data : Data) (perr done ill : Bool) :
    rspDone (packResponse len data perr done ill) = done := by
  simp [rspDone, packResponse]

@[simp] theorem rspPerr_packResponse (len : BitVec 3) (data : Data) (perr done ill : Bool) :
    rspPerr (packResponse len data perr done ill) = perr := by
  simp [rspPerr, packResponse]

@[simp] theorem rspLen_packResponse (len : BitVec 3) (data : Data) (perr done ill : Bool) :
    rspLen (packResponse len data perr done ill) = len := by
  refine BitVec.eq_of_getLsbD_eq fun i hi => ?_
  simp only [rspLen, packResponse,
    BitVec.getLsbD_extractLsb', BitVec.getLsbD_or, BitVec.getLsbD_shiftLeft, BitVec.getLsbD_setWidth]
  interval_cases i <;> simp

@[simp] theorem dataOf_packResponse (len : BitVec 3) (data : Data) (perr done ill : Bool) :
    dataOf (packResponse len data perr done ill) = data := by
  refine BitVec.eq_of_getLsbD_eq fun i hi => ?_
  simp only [dataOf, packResponse,
    BitVec.getLsbD_extractLsb', BitVec.getLsbD_or, BitVec.getLsbD_shiftLeft, BitVec.getLsbD_setWidth]
  interval_cases i <;> simp

@[simp] theorem byteOf_groupWord_zero (b0 b1 b2 : Byte) :
    byteOf (groupWord b0 b1 b2) 0 = b0 := by
  refine BitVec.eq_of_getLsbD_eq fun i hi => ?_
  simp only [byteOf, groupWord,
    BitVec.getLsbD_extractLsb', BitVec.getLsbD_or, BitVec.getLsbD_shiftLeft, BitVec.getLsbD_setWidth]
  interval_cases i <;> simp

@[simp] theorem byteOf_groupWord_one (b0 b1 b2 : Byte) :
    byteOf (groupWord b0 b1 b2) 1 = b1 := by
  refine BitVec.eq_of_getLsbD_eq fun i hi => ?_
  simp only [byteOf, groupWord,
    BitVec.getLsbD_extractLsb', BitVec.getLsbD_or, BitVec.getLsbD_shiftLeft, BitVec.getLsbD_setWidth]
  interval_cases i <;> simp

@[simp] theorem byteOf_groupWord_two (b0 b1 b2 : Byte) :
    byteOf (groupWord b0 b1 b2) 2 = b2 := by
  refine BitVec.eq_of_getLsbD_eq fun i hi => ?_
  simp only [byteOf, groupWord,
    BitVec.getLsbD_extractLsb', BitVec.getLsbD_or, BitVec.getLsbD_shiftLeft, BitVec.getLsbD_setWidth]
  interval_cases i <;> simp

@[simp] theorem sixtetOf_joinWord_zero (s0 s1 s2 s3 : Sixtet) :
    sixtetOf (joinWord s0 s1 s2 s3) 0 = s0 := by
  refine BitVec.eq_of_getLsbD_eq fun i hi => ?_
  simp only [sixtetOf, joinWord,
    BitVec.getLsbD_extractLsb', BitVec.getLsbD_or, BitVec.getLsbD_shiftLeft, BitVec.getLsbD_setWidth]
  interval_cases i <;> simp

@[simp] theorem sixtetOf_joinWord_one (s0 s1 s2 s3 : Sixtet) :
    sixtetOf (joinWord s0 s1 s2 s3) 1 = s1 := by
  refine BitVec.eq_of_getLsbD_eq fun i hi => ?_
  simp only [sixtetOf, joinWord,
    BitVec.getLsbD_extractLsb', BitVec.getLsbD_or, BitVec.getLsbD_shiftLeft, BitVec.getLsbD_setWidth]
  interval_cases i <;> simp

@[simp] theorem sixtetOf_joinWord_two (s0 s1 s2 s3 : Sixtet) :
    sixtetOf (joinWord s0 s1 s2 s3) 2 = s2 := by
  refine BitVec.eq_of_getLsbD_eq fun i hi => ?_
  simp only [sixtetOf, joinWord,
    BitVec.getLsbD_extractLsb', BitVec.getLsbD_or, BitVec.getLsbD_shiftLeft, BitVec.getLsbD_setWidth]
  interval_cases i <;> simp

@[simp] theorem sixtetOf_joinWord_three (s0 s1 s2 s3 : Sixtet) :
    sixtetOf (joinWord s0 s1 s2 s3) 3 = s3 := by
  refine BitVec.eq_of_getLsbD_eq fun i hi => ?_
  simp only [sixtetOf, joinWord,
    BitVec.getLsbD_extractLsb', BitVec.getLsbD_or, BitVec.getLsbD_shiftLeft, BitVec.getLsbD_setWidth]
  interval_cases i <;> simp

/-- Joining the sixtets of a word gives the word back (R44: the inverse of R43). -/
@[simp] theorem joinWord_sixtets (w : BitVec 24) :
    joinWord (sixtetOf w 0) (sixtetOf w 1) (sixtetOf w 2) (sixtetOf w 3) = w := by
  refine BitVec.eq_of_getLsbD_eq fun i hi => ?_
  simp only [sixtetOf, joinWord,
    BitVec.getLsbD_extractLsb', BitVec.getLsbD_or, BitVec.getLsbD_shiftLeft, BitVec.getLsbD_setWidth]
  interval_cases i <;> simp

/-- A 24-bit word is the group word of its three bytes. -/
@[simp] theorem groupWord_bytes (w : BitVec 24) :
    groupWord (byteOf w 0) (byteOf w 1) (byteOf w 2) = w := by
  refine BitVec.eq_of_getLsbD_eq fun i hi => ?_
  simp only [byteOf, groupWord,
    BitVec.getLsbD_extractLsb', BitVec.getLsbD_or, BitVec.getLsbD_shiftLeft, BitVec.getLsbD_setWidth]
  interval_cases i <;> simp

/-- The lanes of packed bytes are the bytes, and zero above them. -/
theorem lane_packBytes (bs : List Byte) {k : Nat} (hk : k < 4) : lane (packBytes bs) k = bs.getD k 0 := by
  interval_cases k <;> simp [packBytes]

theorem lane_packBytes_of_ge {bs : List Byte} {k : Nat} (hk : k < 4) (h : bs.length ≤ k) :
    lane (packBytes bs) k = 0 := by
  simp [lane_packBytes bs hk, List.getElem?_eq_none h]

theorem lane_zero (k : Nat) : lane 0 k = 0 := by simp [lane]

/-- When a packed response is one that R67 and R68 allow. -/
theorem rspWf_packResponse {len : BitVec 3} {data : Data} {perr done ill : Bool} (hlen : len.toNat ≤ 4)
    (hdata : ∀ k < 4, len.toNat ≤ k → lane data k = 0) (hstatus : (ill && done) = false)
    (hperr : (ill && perr) = false) (hempty : (ill || done || perr) = true → len = 0) :
    rspWf (packResponse len data perr done ill) = true := by
  have hlanes : rspLanesWf (packResponse len data perr done ill) = true := by
    simp only [rspLanesWf, List.all_eq_true, List.mem_range, rspLen_packResponse, laneOf, dataOf_packResponse,
      Bool.or_eq_true, decide_eq_true_eq, beq_iff_eq]
    intro k hk
    by_cases h : k < len.toNat
    · exact .inl h
    · exact .inr (hdata k hk (Nat.not_lt.1 h))
  have hends : rspEmptyWf (packResponse len data perr done ill) = true := by
    cases hs : (ill || done || perr)
    · simp [rspEmptyWf, hs]
    · simp [rspEmptyWf, hempty hs]
  simp [rspWf, rspRsvWf, rspLenWf, rspStatusWf, rspIllPerrWf, hlanes, hends, hlen, Bool.and_eq_false_iff.1 hstatus,
    Bool.and_eq_false_iff.1 hperr]

/-- Decoding a request put together from its OPC and data part looks at the two alone. -/
theorem decodeBeat_packRequest (m : Mnemonic) (d : Data) :
    decodeBeat (packRequest m.opc d) = .request (m.withLanes d) := by
  cases m <;> simp [decodeBeat, Mnemonic.opc, Mnemonic.ofOpc]

theorem Mnemonic.ofOpc_opc (m : Mnemonic) : Mnemonic.ofOpc m.opc = some m := by cases m <;> decide

/-- An OPC is that of at most one mnemonic. -/
theorem Mnemonic.opc_of_ofOpc {c : Byte} {m : Mnemonic} (h : Mnemonic.ofOpc c = some m) : m.opc = c := by
  unfold Mnemonic.ofOpc at h
  repeat' split at h
  all_goals first
    | (cases h; simp [Mnemonic.opc, *])
    | cases h

@[simp] theorem Mnemonic.mnemonic_withLanes (m : Mnemonic) (d : Data) : (m.withLanes d).mnemonic = m := by
  cases m <;> rfl

end Sys2Proof
end

