-- ==== Sys2Proof/Laws/State.lean ====
section
/-! SUPPORT. What each update of the state changes and what it leaves alone, field by field. -/

namespace Sys2Proof.Machine

@[simp] theorem respond_decState (s : State) (len : BitVec 3) (data : Data) (perr done ill : Bool) :
    (respond s len data perr done ill).decState = s.decState := rfl

@[simp] theorem respond_reqQueue (s : State) (len : BitVec 3) (data : Data) (perr done ill : Bool) :
    (respond s len data perr done ill).reqQueue = s.reqQueue := rfl

@[simp] theorem respond_rspQueue (s : State) (len : BitVec 3) (data : Data) (perr done ill : Bool) :
    (respond s len data perr done ill).rspQueue = s.rspQueue ++ [packResponse len data perr done ill] := rfl

@[simp] theorem setDecState_decState (s : State) (d : DecState) : (setDecState s d).decState = d := rfl

@[simp] theorem setDecState_reqQueue (s : State) (d : DecState) : (setDecState s d).reqQueue = s.reqQueue := rfl

@[simp] theorem setDecState_rspQueue (s : State) (d : DecState) : (setDecState s d).rspQueue = s.rspQueue := rfl

@[simp] theorem placeRequest_decState (s : State) (b : Beat) : (placeRequest s b).decState = s.decState := rfl

@[simp] theorem placeRequest_reqQueue (s : State) (b : Beat) :
    (placeRequest s b).reqQueue = b :: s.reqQueue.tail := rfl

@[simp] theorem placeRequest_rspQueue (s : State) (b : Beat) : (placeRequest s b).rspQueue = [] := rfl

@[simp] theorem reset_decState : State.reset.decState = .opened := rfl

@[simp] theorem reset_reqQueue : State.reset.reqQueue = [] := rfl

@[simp] theorem reset_rspQueue : State.reset.rspQueue = [] := rfl

@[simp] theorem perrOf_eq_true (d : DecState) : perrOf d = true ↔ d = .err := by cases d <;> simp [perrOf]

theorem Config.rspDepth_pos : 0 < Config.rspDepth := Nat.succ_pos _

theorem Config.reqDepth_pos : 0 < Config.reqDepth := Nat.succ_pos _

end Sys2Proof.Machine
end

