-- ==== Sys2Proof/Laws/Ops.lean ====
section
/-! SUPPORT. What each shared operation can do, said once: fetching, answering, executing, and a step. -/

namespace Sys2Proof.Machine

theorem fetch_ok_iff (s : State) (b : Beat) (s' : State) :
    fetch s = .ok (b, s') ↔
      ∃ rest, s.reqQueue = b :: rest ∧ rspHasRoom s = true ∧ s' = { s with reqQueue := rest } := by
  unfold fetch
  cases h : s.reqQueue with
  | nil => simp
  | cons q rest =>
    cases hr : rspHasRoom s <;> simp [eq_comm]

theorem fetch_of_cons {s : State} {b : Beat} {rest : List Beat} (hq : s.reqQueue = b :: rest)
    (hr : rspHasRoom s = true) : fetch s = .ok (b, { s with reqQueue := rest }) :=
  (fetch_ok_iff s b _).2 ⟨rest, hq, hr, rfl⟩

theorem rspHasRoom_iff (s : State) : rspHasRoom s = true ↔ s.rspQueue.length < Config.rspDepth := by
  simp [rspHasRoom]

theorem reqHasRoom_iff (s : State) : reqHasRoom s = true ↔ s.reqQueue.length < Config.reqDepth := by
  simp [reqHasRoom]

theorem accepting_iff (s : State) :
    accepting s = true ↔ s.reqQueue.length < Config.reqDepth ∧ s.rspQueue.length < Config.rspDepth := by
  simp [accepting, reqHasRoom, rspHasRoom]

/-- Everything issuing a request can have done. -/
theorem issue_eq_some_iff (b : Beat) (s s' : State) :
    issue b s = some s' ↔ s.reqQueue.length < Config.reqDepth ∧ s.rspQueue.length < Config.rspDepth ∧
      s' = { s with reqQueue := s.reqQueue ++ [b] } := by
  unfold issue
  by_cases h : accepting s = true
  · simp [h, (accepting_iff s).1 h, eq_comm]
  · rw [if_neg h]
    simp only [reduceCtorEq, false_iff, not_and]
    exact fun h1 h2 _ => h ((accepting_iff s).2 ⟨h1, h2⟩)

/-- Everything taking a response can have done. -/
theorem take_eq_some_iff (s : State) (r : Beat) (s' : State) :
    take s = some (r, s') ↔ ∃ rs, s.rspQueue = r :: rs ∧ s' = { s with rspQueue := rs } := by
  unfold take
  cases h : s.rspQueue with
  | nil => simp
  | cons q rs => simp [eq_comm]

/-- The placed request is the one that is fetched, whatever the state. -/
theorem fetch_placeRequest (s : State) (b : Beat) :
    fetch (placeRequest s b) = .ok (b, { s with reqQueue := s.reqQueue.tail, rspQueue := [] }) :=
  fetch_of_cons rfl ((rspHasRoom_iff _).2 Config.rspDepth_pos)

/-- The state's own answer to a request is one response behind the earlier ones, and no request is touched. -/
def AnswersOnce (s t : State) : Prop :=
  t.reqQueue = s.reqQueue ∧ ∃ r, t.rspQueue = s.rspQueue ++ [r]

theorem respond_answersOnce {s : State} (u : State) (hq : u.reqQueue = s.reqQueue) (hr : u.rspQueue = s.rspQueue)
    (len : BitVec 3) (data : Data) (perr done ill : Bool) : AnswersOnce s (respond u len data perr done ill) :=
  ⟨hq, _, by rw [respond_rspQueue, hr]⟩

theorem raiseParseError_answersOnce (s : State) : AnswersOnce s (raiseParseError s) :=
  respond_answersOnce _ rfl rfl _ _ _ _ _

theorem respondBytes_answersOnce {s : State} (u : State) (hq : u.reqQueue = s.reqQueue) (hr : u.rspQueue = s.rspQueue)
    (bs : List Byte) : AnswersOnce s (respondBytes u bs) :=
  respond_answersOnce u hq hr _ _ _ _ _

/-- A partial group answers the same beat and leaves ERR, whatever the state was. -/
theorem partialGroup_eq (s : State) : partialGroup s = raiseParseError s := by
  cases s with
  | mk d q r => cases d <;> rfl

theorem openGroup_answersOnce (c0 c1 c2 c3 : Byte) (s : State) : AnswersOnce s (openGroup c0 c1 c2 c3 s) := by
  unfold openGroup
  split
  · exact raiseParseError_answersOnce s
  · exact respondBytes_answersOnce s rfl rfl _
  · exact respondBytes_answersOnce _ rfl rfl _
  · exact respondBytes_answersOnce _ rfl rfl _

/-- The state DEC4 leads to. -/
def dec4State (c0 c1 c2 c3 : Byte) (s : State) : State :=
  match s.decState with
  | .err => respondSuppressed s
  | .closed => raiseParseError s
  | .opened => openGroup c0 c1 c2 c3 s

theorem execDec4_eq (c0 c1 c2 c3 : Byte) (s : State) :
    execDec4 c0 c1 c2 c3 s = .next (dec4State c0 c1 c2 c3 s) := by
  unfold execDec4 dec4State
  cases s.decState <;> rfl

theorem dec4State_answersOnce (c0 c1 c2 c3 : Byte) (s : State) : AnswersOnce s (dec4State c0 c1 c2 c3 s) := by
  unfold dec4State
  split
  · exact respond_answersOnce s rfl rfl _ _ _ _ _
  · exact raiseParseError_answersOnce s
  · exact openGroup_answersOnce c0 c1 c2 c3 s

end Sys2Proof.Machine
end

