-- ==== Sys2Proof/Laws/Reply.lean ====
section
/-! SUPPORT. What a step does, said once: the next `DEC_STATE` and the response are a function of `DEC_STATE` and the request
beat (`reply`), and a step, a transaction and a served stream are that function and nothing else. -/

namespace Sys2Proof.Machine

/-- The next `DEC_STATE` and the response of a decoded beat. -/
def replyTo (d : DecState) : Decoded → DecState × Beat
  | .request (.enc1 b0) => (d, packResponse 4 (encData 1 (groupWord b0 0 0)) false false false)
  | .request (.enc2 b0 b1) => (d, packResponse 4 (encData 2 (groupWord b0 b1 0)) false false false)
  | .request (.enc3 b0 b1 b2) => (d, packResponse 4 (encData 3 (groupWord b0 b1 b2)) false false false)
  | .request (.dec1 _) => (.err, packResponse 0 0 true false false)
  | .request (.dec2 _ _) => (.err, packResponse 0 0 true false false)
  | .request (.dec3 _ _ _) => (.err, packResponse 0 0 true false false)
  | .request (.dec4 c0 c1 c2 c3) =>
    match d, check4 c0 c1 c2 c3 with
    | .opened, .full =>
      (.opened, packResponse 3 (packBytes (join4 .full c0 c1 c2 c3)) false false false)
    | .opened, .pad1 =>
      (.closed, packResponse 2 (packBytes (join4 .pad1 c0 c1 c2 c3)) false false false)
    | .opened, .pad2 =>
      (.closed, packResponse 1 (packBytes (join4 .pad2 c0 c1 c2 c3)) false false false)
    | _, _ => (.err, packResponse 0 0 true false false)
  | .request .dend => (.opened, packResponse 0 0 (perrOf d) true false)
  | .illegal _ => (d, packResponse 0 0 false false true)

/-- The next `DEC_STATE` and the response of a request beat. -/
def reply (d : DecState) (b : Beat) : DecState × Beat := replyTo d (decodeBeat b)

/-- The state `s` after an answer: `DEC_STATE` and one response more. -/
def answered (s : State) (a : DecState × Beat) : State :=
  { s with decState := a.1, rspQueue := s.rspQueue ++ [a.2] }

@[simp] theorem answered_decState (s : State) (a : DecState × Beat) : (answered s a).decState = a.1 := rfl

@[simp] theorem answered_reqQueue (s : State) (a : DecState × Beat) : (answered s a).reqQueue = s.reqQueue := rfl

@[simp] theorem answered_rspQueue (s : State) (a : DecState × Beat) :
    (answered s a).rspQueue = s.rspQueue ++ [a.2] := rfl

/-- Executing a request is answering it. -/
theorem exec_eq_answered (i : Instr) (s : State) :
    exec i s = .next (answered s (replyTo s.decState (.request i))) := by
  obtain ⟨d, q, r⟩ := s
  cases i with
  | dec4 c0 c1 c2 c3 =>
    cases d <;> cases h : check4 c0 c1 c2 c3 <;>
      simp [exec, execDec4, openGroup, replyTo, h] <;> rfl
  | dec1 c0 => cases d <;> rfl
  | dec2 c0 c1 => cases d <;> rfl
  | dec3 c0 c1 c2 => cases d <;> rfl
  | enc1 b0 => rfl
  | enc2 b0 b1 => rfl
  | enc3 b0 b1 b2 => rfl
  | dend => rfl

/-- A step takes the oldest request off its queue and answers it. -/
theorem step_of_cons {s : State} {b : Beat} {rest : List Beat} (hq : s.reqQueue = b :: rest)
    (hr : s.rspQueue.length < Config.rspDepth) :
    step s = .next (answered { s with reqQueue := rest } (reply s.decState b)) := by
  unfold step reply
  rw [fetch_of_cons hq ((rspHasRoom_iff s).2 hr)]
  cases hd : decodeBeat b with
  | request i => simp [hd, exec_eq_answered]
  | illegal c => simp [hd]; rfl

theorem step_of_nil {s : State} (hq : s.reqQueue = []) : step s = .fault .requestQueueEmpty := by
  simp [step, fetch, hq]

theorem step_of_full {s : State} (hq : s.reqQueue ≠ []) (hr : Config.rspDepth ≤ s.rspQueue.length) :
    step s = .fault .responseQueueFull := by
  obtain ⟨d, q, r⟩ := s
  cases q with
  | nil => exact absurd rfl hq
  | cons b rest => simp [step, fetch, rspHasRoom, Nat.not_lt.2 hr]

/-- Everything a step that answers a next state can have done. -/
theorem step_next {s t : State} (h : step s = .next t) :
    ∃ b rest, s.reqQueue = b :: rest ∧ s.rspQueue.length < Config.rspDepth ∧
      t = answered { s with reqQueue := rest } (reply s.decState b) := by
  cases hq : s.reqQueue with
  | nil => rw [step_of_nil hq] at h; cases h
  | cons b rest =>
    by_cases hr : s.rspQueue.length < Config.rspDepth
    · rw [step_of_cons hq hr] at h
      cases h
      exact ⟨b, rest, rfl, hr, rfl⟩
    · rw [step_of_full (by simp [hq]) (Nat.not_lt.1 hr)] at h
      cases h

/-- The placed request is the one that runs, whatever the state. -/
theorem step_withFetchWord (s : State) (nbits w : Nat) :
    step (s.withFetchWord nbits w) =
      .next (answered { s with reqQueue := s.reqQueue.tail, rspQueue := [] }
        (reply s.decState (BitVec.ofNat 40 (w % 2 ^ nbits)))) :=
  step_of_cons (s := s.withFetchWord nbits w) rfl Config.rspDepth_pos

/-- A request served alone on a block with empty queues: its own response, and `DEC_STATE` as it leaves it. -/
theorem transact_eq (b : Beat) (d : DecState) :
    transact b { decState := d, reqQueue := [], rspQueue := [] } =
      some ((reply d b).2, { decState := (reply d b).1, reqQueue := [], rspQueue := [] }) := by
  have hi : issue b { decState := d, reqQueue := [], rspQueue := [] } =
      some { decState := d, reqQueue := [b], rspQueue := [] } :=
    (issue_eq_some_iff _ _ _).2 ⟨Config.reqDepth_pos, Config.rspDepth_pos, rfl⟩
  rw [transact, hi]
  simp only [step_of_cons (s := { decState := d, reqQueue := [b], rspQueue := [] }) rfl Config.rspDepth_pos]
  rfl

/-- `DEC_STATE` after a stream of requests. -/
def decAfter (d : DecState) (bs : List Beat) : DecState := bs.foldl (fun d b => (reply d b).1) d

/-- The responses to a stream of requests. -/
def replies : DecState → List Beat → List Beat
  | _, [] => []
  | d, b :: bs => (reply d b).2 :: replies (reply d b).1 bs

/-- Serving a stream on a block with empty queues always succeeds, and answers request by request. -/
theorem serve_eq (bs : List Beat) (d : DecState) :
    serve bs { decState := d, reqQueue := [], rspQueue := [] } =
      some (replies d bs, { decState := decAfter d bs, reqQueue := [], rspQueue := [] }) := by
  induction bs generalizing d with
  | nil => rfl
  | cons b bs ih =>
    rw [serve, transact_eq]
    simp only [ih]
    rfl

theorem replies_append (d : DecState) (as bs : List Beat) :
    replies d (as ++ bs) = replies d as ++ replies (decAfter d as) bs := by
  induction as generalizing d with
  | nil => rfl
  | cons a as ih => simp only [List.cons_append, replies, ih]; rfl

@[simp] theorem replies_length (d : DecState) (bs : List Beat) : (replies d bs).length = bs.length := by
  induction bs generalizing d with
  | nil => rfl
  | cons b bs ih => simp [replies, ih]

end Sys2Proof.Machine
end

