-- ==== Sys2Proof/Laws/Fairness.lean ====
section
/-! SUPPORT. What one move of a session can do, said once, and how readiness and the session go on in a run. -/

namespace Sys2Proof.Machine

/-- Everything a move of a session can have done. -/
theorem move_cases {m : Move} {h h' : Session} (hm : h.move m = some h') :
    (∃ b, m = .issue b ∧ h.state.reqQueue.length < Config.reqDepth ∧ h.state.rspQueue.length < Config.rspDepth ∧
      h' = { h with state := { h.state with reqQueue := h.state.reqQueue ++ [b] }, accepted := h.accepted ++ [b] }) ∨
    (∃ b rest, m = .execute ∧ h.state.reqQueue = b :: rest ∧ h.state.rspQueue.length < Config.rspDepth ∧
      h' = { h with state := answered { h.state with reqQueue := rest } (reply h.state.decState b) }) ∨
    (∃ r rs, m = .take ∧ h.state.rspQueue = r :: rs ∧
      h' = { h with state := { h.state with rspQueue := rs }, taken := h.taken ++ [r] }) ∨
    (m = .assertReset ∧ h' = Session.start State.reset) := by
  cases m with
  | issue b =>
    cases hi : issue b h.state with
    | none => simp [Session.move, hi] at hm
    | some s =>
      obtain ⟨hq, hr, rfl⟩ := (issue_eq_some_iff _ _ _).1 hi
      exact .inl ⟨b, rfl, hq, hr, by simpa [Session.move, hi, eq_comm] using hm⟩
  | execute =>
    cases hs : step h.state with
    | next t =>
      obtain ⟨b, rest, hq, hr, rfl⟩ := step_next hs
      exact .inr (.inl ⟨b, rest, rfl, hq, hr, by simpa [Session.move, hs, eq_comm] using hm⟩)
    | fault f => simp [Session.move, hs] at hm
    | refused r => simp [Session.move, hs] at hm
  | take =>
    cases ht : take h.state with
    | none => simp [Session.move, ht] at hm
    | some p =>
      obtain ⟨r, s⟩ := p
      obtain ⟨rs, hr, rfl⟩ := (take_eq_some_iff _ _ _).1 ht
      exact .inr (.inr (.inl ⟨r, rs, rfl, hr, by simpa [Session.move, ht, eq_comm] using hm⟩))
  | assertReset => exact .inr (.inr (.inr ⟨rfl, by simpa [Session.move, assertReset, eq_comm] using hm⟩))

@[simp] theorem turn_none (h : Session) : h.turn none = some h := rfl

@[simp] theorem turn_some (m : Move) (h : Session) : h.turn (some m) = h.move m := rfl

/-- The move that happens at a point of a run leads to the next point. -/
theorem run_move {act : Nat → Option Move} {σ : Nat → Session} {n : Nat} {m : Move} (hrun : IsRun act σ)
    (ha : act n = some m) : (σ n).move m = some (σ (n + 1)) := by
  rw [← turn_some, ← ha]
  exact hrun n

/-- A point of a run at which nothing happens is the next point. -/
theorem run_idle {act : Nat → Option Move} {σ : Nat → Session} {n : Nat} (hrun : IsRun act σ) (ha : act n = none) :
    σ (n + 1) = σ n := by
  have h := hrun n
  rw [ha, turn_none] at h
  exact (Option.some.inj h).symm

/-- A block that has a step still has one after every turn but its own and reset. -/
theorem ready_turn {a : Option Move} {h h' : Session} (ht : h.turn a = some h') (he : a ≠ some .execute)
    (hr : a ≠ some .assertReset) (hs : Ready h.state) : Ready h'.state := by
  obtain ⟨hq, hl⟩ := hs
  cases a with
  | none => cases ht; exact ⟨hq, hl⟩
  | some m =>
    obtain ⟨b, rfl, -, -, rfl⟩ | ⟨b, rest, rfl, -⟩ | ⟨r, rs, rfl, h1, rfl⟩ | ⟨rfl, -⟩ := move_cases ht
    · exact ⟨by simp, hl⟩
    · exact absurd rfl he
    · refine ⟨hq, ?_⟩
      simp only [h1, List.length_cons] at hl
      exact Nat.lt_of_succ_lt hl
    · exact absurd rfl hr

/-- What holds at a point of a run and is kept by every later turn holds at every later point. -/
theorem run_invariant {act : Nat → Option Move} {σ : Nat → Session} {P : Session → Prop} {n : Nat} (hrun : IsRun act σ)
    (h0 : P (σ n)) (hstep : ∀ k h', n ≤ k → P (σ k) → (σ k).turn (act k) = some h' → P h') :
    ∀ k, n ≤ k → P (σ k) := by
  intro k hk
  induction k, hk using Nat.le_induction with
  | base => exact h0
  | succ k hk ih => exact hstep k _ hk ih (hrun k)

end Sys2Proof.Machine
end

