-- ==== Sys2Proof/Laws/Message.lean ====
section
/-! SUPPORT. The message-level functions, one request at a time: how `DEC_STATE`, the responses and the results of the decode
messages go on when a request is put in front of a stream. Proofs about ENCSTR and DECSTR cite these instead of unfolding
`serve` or a beat. -/

namespace Sys2Proof.Machine

@[simp] theorem beatsOf_nil : beatsOf [] = [] := rfl

theorem beatsOf_cons (i : Instr) (is : List Instr) : beatsOf (i :: is) = encode i :: beatsOf is := rfl

/-- A block with empty queues, served a stream: only `DEC_STATE` can differ at the end. -/
theorem serve_of_quiet {s : State} (hq : s.reqQueue = []) (hr : s.rspQueue = []) (bs : List Beat) :
    serve bs s = some (replies s.decState bs, { s with decState := decAfter s.decState bs }) := by
  obtain ⟨d, q, r⟩ := s
  cases hq
  cases hr
  exact serve_eq bs d

theorem decAfter_cons (d : DecState) (b : Beat) (bs : List Beat) :
    decAfter d (b :: bs) = decAfter (reply d b).1 bs := rfl

theorem decAfter_append (d : DecState) (as bs : List Beat) :
    decAfter d (as ++ bs) = decAfter (decAfter d as) bs := by
  simp [decAfter, List.foldl_append]

theorem zip_replies_cons (d : DecState) (b : Beat) (bs : List Beat) :
    (b :: bs).zip (replies d (b :: bs)) = (b, (reply d b).2) :: bs.zip (replies (reply d b).1 bs) := rfl

theorem elementsOf_cons (r : Beat) (rs : List Beat) : elementsOf (r :: rs) = rspBytes r ++ elementsOf rs := rfl

theorem elementsOf_append (as bs : List Beat) : elementsOf (as ++ bs) = elementsOf as ++ elementsOf bs := by
  simp [elementsOf]

theorem messageResults_data {q : Beat} (h : beatKind q = some .decoderData) (acc : List Byte) (r : Beat)
    (l : List (Beat × Beat)) : messageResults acc ((q, r) :: l) = messageResults (acc ++ rspBytes r) l := by
  simp [messageResults, h]

theorem messageResults_end {q : Beat} (h : beatKind q = some .decoderEnd) (acc : List Byte) (r : Beat)
    (l : List (Beat × Beat)) :
    messageResults acc ((q, r) :: l) = (if rspPerr r then .parseError else .success acc) :: messageResults [] l := by
  simp [messageResults, h]

theorem messageResults_other {q : Beat} (h : beatKind q = some .encoder ∨ beatKind q = none) (acc : List Byte) (r : Beat)
    (l : List (Beat × Beat)) : messageResults acc ((q, r) :: l) = messageResults acc l := by
  rcases h with h | h <;> simp [messageResults, h]

/-- The valid lanes of an encoder response are its four characters. -/
theorem rspBytes_chars (c0 c1 c2 c3 : Byte) :
    rspBytes (packResponse 4 (packLanes c0 c1 c2 c3) false false false) = [c0, c1, c2, c3] := by
  simp [rspBytes, laneOf]

/-- The valid lanes of an accepted group's response are its bytes. -/
theorem rspBytes_packBytes {n : BitVec 3} {bs : List Byte} (h : bs.length = n.toNat) (hn : n.toNat ≤ 3) :
    rspBytes (packResponse n (packBytes bs) false false false) = bs := by
  simp only [rspBytes, laneOf, dataOf_packResponse, rspLen_packResponse]
  rw [lane_packBytes _ (by omega), lane_packBytes _ (by omega), lane_packBytes _ (by omega),
    lane_packBytes _ (by omega), ← h]
  match bs, h with
  | [], _ => rfl
  | [_], _ => rfl
  | [_, _], _ => rfl
  | [_, _, _], _ => rfl
  | _ :: _ :: _ :: _ :: _, h => simp at h; omega

end Sys2Proof.Machine
end

