-- ==== Sys2Proof/Laws/PerInstr.lean ====
section
/-! SUPPORT. A fact about every request as syntax: the beat the encoder writes carries the request's OPC in bits [39:32],
and 0x00 in every lane the request ignores (spec/30_encoding.md R60, R62, R69). -/

namespace Sys2Proof.Laws.EncodedFields

/-- The encoded beat has the request's OPC, its operands in the first lanes, and zero in the others. -/
def Statement (i : Instr) : Prop :=
  opcOf (encode i) = i.mnemonic.opc ∧
  (List.range 4).map (laneOf (encode i)) = i.operands ++ List.replicate (4 - i.operands.length) 0

theorem enc1 (b0 : Byte) : Statement (.enc1 b0) := by
  simp [Statement, encode, Instr.data, laneOf, List.range, List.range.loop, Instr.operands]
theorem enc2 (b0 b1 : Byte) : Statement (.enc2 b0 b1) := by
  simp [Statement, encode, Instr.data, laneOf, List.range, List.range.loop, Instr.operands]
theorem enc3 (b0 b1 b2 : Byte) : Statement (.enc3 b0 b1 b2) := by
  simp [Statement, encode, Instr.data, laneOf, List.range, List.range.loop, Instr.operands]
theorem dec1 (c0 : Byte) : Statement (.dec1 c0) := by
  simp [Statement, encode, Instr.data, laneOf, List.range, List.range.loop, Instr.operands]
theorem dec2 (c0 c1 : Byte) : Statement (.dec2 c0 c1) := by
  simp [Statement, encode, Instr.data, laneOf, List.range, List.range.loop, Instr.operands]
theorem dec3 (c0 c1 c2 : Byte) : Statement (.dec3 c0 c1 c2) := by
  simp [Statement, encode, Instr.data, laneOf, List.range, List.range.loop, Instr.operands]
theorem dec4 (c0 c1 c2 c3 : Byte) : Statement (.dec4 c0 c1 c2 c3) := by
  simp [Statement, encode, Instr.data, laneOf, List.range, List.range.loop, Instr.operands]
theorem dend : Statement .dend := by
  simp [Statement, encode, Instr.data, laneOf, List.range, List.range.loop, Instr.operands]

end Sys2Proof.Laws.EncodedFields
end

