-- ==== Sys2Proof/Laws/Tables.lean ====
section
/-! SUPPORT. The two lookup tables: FWD has an entry for every sixtet, and INV is its inverse (spec/10_state.md R27,
R28). -/

namespace Sys2Proof

/-- FWD has 64 entries, so a read by a 6-bit index never takes the default. -/
theorem fwdTable_length : fwdTable.length = 64 := by decide

theorem fwd_eq_getElem? (i : Sixtet) : fwdTable[i.toNat]? = some (fwd i) := by
  have h : i.toNat < fwdTable.length := by rw [fwdTable_length]; exact i.isLt
  simp [fwd, h]

/-- `INV[FWD[i]] = IDX(i)` (R28). -/
@[simp] theorem inv_fwd (i : Sixtet) : inv (fwd i) = .idx i := by revert i; decide

/-- FWD never gives the padding character. -/
theorem fwd_ne_pad (i : Sixtet) : fwd i ≠ 0x3D := by revert i; decide

theorem inv_eq_pad_iff (c : Byte) : inv c = .pad ↔ c = 0x3D := by revert c; decide

@[simp] theorem inv_padCode : inv padCode = .pad := by decide

theorem fwd_of_inv {c : Byte} {v : Sixtet} (h : inv c = .idx v) : fwd v = c := by
  have key : ∀ c : Byte, inv c = .pad ∨ inv c = .invalid ∨ fwd (inv c).value = c := by decide
  simpa [h, CharClass.value] using key c

theorem fwd_injective {i j : Sixtet} (h : fwd i = fwd j) : i = j := by
  have h2 := congrArg inv h
  simpa using h2

end Sys2Proof
end

