-- ==== Sys2Proof/Tests/Slice0.lean ====
section
/-! SUPPORT. Small tests, each expected value taken from spec/ (spec/95_test_vectors.md unless another file is named), and a
witness for the hypotheses of each statement. -/

open Sys2Proof Sys2Proof.Machine

/-! ### Well-formedness: each check refuses an ill-formed beat (spec/30_encoding.md R67, R68) -/

theorem test_rsv_refused : rspRsvWf 0x4400000000 = false := by decide
theorem test_len_five_refused : rspLenWf 0x0500000000 = false := by decide
theorem test_ill_with_done_refused : rspStatusWf 0x3000000000 = false := by decide
theorem test_stale_lane_refused : rspLanesWf 0x0100004100 = false := by decide
theorem test_ill_with_perr_refused : rspIllPerrWf 0x2800000000 = false := by decide
theorem test_perr_with_bytes_refused : rspEmptyWf 0x0900000041 = false := by decide
theorem test_enc_response_wf : rspWf 0x0475465754 = true := by decide
theorem test_instr_wf : Instr.wf .dend = true := by decide

/-! ### Decoding: words written out from R60 and R62 -/

theorem test_decode_enc1 : decodeBeat 0x010000004D = .request (.enc1 0x4D) := by decide
theorem test_decode_enc2 : decodeBeat 0x020000614D = .request (.enc2 0x4D 0x61) := by decide
theorem test_decode_enc3 : decodeBeat 0x03006E614D = .request (.enc3 0x4D 0x61 0x6E) := by decide
theorem test_decode_dec1 : decodeBeat 0x1100000041 = .request (.dec1 0x41) := by decide
theorem test_decode_dec2 : decodeBeat 0x1200004241 = .request (.dec2 0x41 0x42) := by decide
theorem test_decode_dec3 : decodeBeat 0x13FF434241 = .request (.dec3 0x41 0x42 0x43) := by decide
theorem test_decode_dec4 : decodeBeat 0x1475465754 = .request (.dec4 0x54 0x57 0x46 0x75) := by decide
theorem test_decode_dend : decodeBeat 0x1841414141 = .request .dend := by decide
theorem test_decode_illegal_04 : decodeBeat 0x0441414141 = .illegal 0x04 := by decide
theorem test_decode_illegal_1C : decodeBeat 0x1C41414141 = .illegal 0x1C := by decide
theorem test_encode_dec4 : encode (.dec4 0x54 0x57 0x46 0x75) = 0x1475465754 := by decide
theorem test_decode_table_word : decodeTableWord 40 0x0300000000 = some (.enc3 0 0 0) := by decide
theorem test_decode_table_word_illegal : decodeTableWord 40 0x0400000000 = none := by decide

/-! ### One step on a small state: the vector's request is placed, the step taken, and the new `DEC_STATE` and the one
response compared -/

/-- A state with empty queues. -/
def stateIn (d : DecState) : State := { decState := d, reqQueue := [], rspQueue := [] }

/-- The step on the request `w` from `DEC_STATE = d` leaves `d'` and answers `r`. -/
def stepGives (d : DecState) (w : Nat) (d' : DecState) (r : Beat) : Bool :=
  match step ((stateIn d).withFetchWord 40 w) with
  | .next t => decide (t = { decState := d', reqQueue := [], rspQueue := [r] })
  | .fault _ => false
  | .refused _ => false

/-- V-E14, s1 = 48. -/
theorem test_enc1 : stepGives .closed 0x01000000FF .closed 0x043D3D772F = true := by decide
/-- V-E10, zero filler bits. -/
theorem test_enc2 : stepGives .err 0x020000FFFF .err 0x043D382F2F = true := by decide
/-- V-E6, four different sixtets. -/
theorem test_enc3 : stepGives .opened 0x03009CFB14 .opened 0x0463755046 = true := by decide
/-- V-E17, lane 3 ignored. -/
theorem test_enc3_ignored_lane : stepGives .opened 0x03AA6E614D .opened 0x0475465754 = true := by decide
/-- V-D37, the character value is irrelevant. -/
theorem test_dec1 : stepGives .opened 0x110000003D .err 0x0800000000 = true := by decide
/-- V-D35, a remainder after a padded group. -/
theorem test_dec2 : stepGives .closed 0x1200004141 .err 0x0800000000 = true := by decide
/-- V-D43, lane 3 ignored. -/
theorem test_dec3 : stepGives .opened 0x13FF414141 .err 0x0800000000 = true := by decide
/-- V-D9, don't-care bits accepted. -/
theorem test_dec4_pad1 : stepGives .opened 0x143D392F2F .closed 0x020000FFFF = true := by decide
/-- V-D22, an invalid character beside padding. -/
theorem test_dec4_fail : stepGives .opened 0x143D3D7B42 .err 0x0800000000 = true := by decide
/-- V-D41, the verdict is ParseError and the state is cleared. -/
theorem test_dend_err : stepGives .err 0x1800000000 .opened 0x1800000000 = true := by decide
/-- V-D40, success after a padded group. -/
theorem test_dend_closed : stepGives .closed 0x1800000000 .opened 0x1000000000 = true := by decide
/-- V-I6, an illegal request does not clear ERR. -/
theorem test_illegal : stepGives .err 0x1941414141 .err 0x2000000000 = true := by decide
/-- The first request after reset (spec/70_reset_and_hazards.md R152). -/
theorem test_reset_dend :
    (match step (State.reset.withFetchWord 40 0x1800000000) with
      | .next t => decide (t.rspQueue = [0x1000000000])
      | .fault _ => false
      | .refused _ => false) = true := by decide

/-! ### Messages and assembler text -/

/-- V-S9, `B{==` is not valid, by its codes. -/
theorem test_invalid_brace : ¬ Valid [0x42, 0x7B, 0x3D, 0x3D] := by decide
/-- V-S1. -/
theorem test_valid_padded : Valid [0x41, 0x41, 0x3D, 0x3D] := by decide
/-- V-S10, L = 4. -/
theorem test_base64_four : bytesToBase64 [1, 2, 3, 4] = [0x41, 0x51, 0x49, 0x44, 0x42, 0x41, 0x3D, 0x3D] := by decide
/-- spec/30_encoding.md R69, `DEC1 'A'` and a comment. -/
theorem test_parse_dec1 : tokensLine [.word ['D', 'E', 'C', '1'], .quoted 0x41] =
    some (.request .dec1 [.quoted 0x41]) := by decide

/-- R107, `DEC4 "TWFu"`. -/
theorem test_assemble_shorthand : assembleText ['D', 'E', 'C', '4', ' ', '"', 'T', 'W', 'F', 'u', '"'] =
    .ok (some 0x1475465754) := rfl

/-! ### Witnesses: for each statement with hypotheses, values that meet them -/

/-- A state whose response queue is full, with one request waiting. -/
def stalledState : State :=
  { decState := .opened, reqQueue := [0x1800000000], rspQueue := List.replicate Config.rspDepth 0x1000000000 }

/-- A state whose request queue is full. -/
def crowdedState : State :=
  { decState := .opened, reqQueue := List.replicate Config.reqDepth 0x1800000000, rspQueue := [] }

/-- A state that waits with the one request `b`. -/
def waiting (d : DecState) (b : Beat) : State := { decState := d, reqQueue := [b], rspQueue := [] }

theorem room_of_waiting (d : DecState) (b : Beat) : (waiting d b).rspQueue.length < Config.rspDepth := Config.rspDepth_pos

theorem quiet_stateIn (d : DecState) : quiet (stateIn d) := ⟨rfl, rfl⟩

theorem inv_stateIn (d : DecState) : Inv (stateIn d) := ⟨Nat.zero_le _, Nat.zero_le _, by simp [stateIn]⟩

theorem inv_waiting (d : DecState) (b : Beat) : Inv (waiting d b) :=
  ⟨Config.reqDepth_pos, Nat.zero_le _, by simp [waiting]⟩

/-- A step from the waiting state answers a next state. -/
theorem step_waiting (d : DecState) (b : Beat) : ∃ t, step (waiting d b) = .next t :=
  ⟨_, step_of_cons rfl (room_of_waiting d b)⟩

theorem witness_DecodeOfEncodeIsIdentity : Instr.wf (.dec4 0xFF 0x00 0x80 0x3D) = true := by decide
theorem witness_OpcodeMapIsComplete :
    opcOf 0x01FFFFFFFF = 0x01 ∧ opcOf 0x0200000000 = 0x02 ∧ opcOf 0x0300000000 = 0x03 ∧ opcOf 0x1100000000 = 0x11 ∧
    opcOf 0x1200000000 = 0x12 ∧ opcOf 0x1300000000 = 0x13 ∧ opcOf 0x14FFFFFFFF = 0x14 ∧ opcOf 0x18FFFFFFFF = 0x18 ∧
    opcOf 0x0000000000 ∉ [0x01, 0x02, 0x03, 0x11, 0x12, 0x13, 0x14, 0x18] ∧
    opcOf 0x04FFFFFFFF ∉ [0x01, 0x02, 0x03, 0x11, 0x12, 0x13, 0x14, 0x18] ∧
    opcOf 0xFFFFFFFFFF ∉ [0x01, 0x02, 0x03, 0x11, 0x12, 0x13, 0x14, 0x18] := by decide
theorem witness_IgnoredLanesHaveNoEffect :
    opcOf 0x03AA6E614D = opcOf 0x03006E614D ∧
    (∀ k < Mnemonic.enc3.arity, laneOf 0x03AA6E614D k = laneOf 0x03006E614D k) ∧
    laneOf 0x03AA6E614D 3 ≠ laneOf 0x03006E614D 3 := by decide
theorem witness_IgnoredLanesHaveNoEffect_mnemonics :
    ∀ m : Mnemonic, opcOf 0x03AA6E614D = m.opc → ∀ k < m.arity, laneOf 0x03AA6E614D k = laneOf 0x03006E614D k := by
  intro m h; cases m <;> revert h <;> decide
theorem witness_DisassemblyDeterminesTheBeat :
    opcOf 0x01FFFFFF4D = Mnemonic.enc1.opc ∧ 1 ≤ 3 ∧ Mnemonic.enc1.arity ≤ 3 ∧ ∀ m : Mnemonic, opcOf 0x1900000000 ≠ m.opc := by
  refine ⟨by decide, by decide, by decide, ?_⟩
  intro m; cases m <;> decide
theorem witness_AssemblerWritesOperandsAndZeros :
    [Operand.hex 1].length ≠ Mnemonic.enc2.arity ∧
    assemble (.request .enc1 [.dec 255]) = .ok (some 0x01000000FF) ∧
    [Operand.quoted 0x4D, .dec 97].map (operandValue .enc2) = [(0x4D : Byte), 0x61].map some ∧
    [(0x4D : Byte), 0x61].length = Mnemonic.enc2.arity ∧ Mnemonic.enc3 ∈ [Mnemonic.enc1, .enc2, .enc3] ∧
    Mnemonic.dec4 ∉ [Mnemonic.enc1, .enc2, .enc3] :=
  ⟨by decide, rfl, by decide, by decide, by decide, by decide⟩
theorem witness_StringShorthandAndRawBeat :
    Mnemonic.dec2 ∈ [Mnemonic.dec1, .dec2, .dec3, .dec4] ∧ [0x41, 127].length = Mnemonic.dec2.arity ∧
    (∀ c ∈ [0x41, 127], c < 128) ∧ [0x41].length ≠ Mnemonic.dec2.arity ∧
    Mnemonic.dend ∉ [Mnemonic.dec1, .dec2, .dec3, .dec4] := by decide
theorem witness_StepRunsTheDecodedRequest :
    (waiting .opened 0x03006E614D).reqQueue = 0x03006E614D :: [] ∧
    (waiting .opened 0x03006E614D).rspQueue.length < Config.rspDepth ∧
    decodeBeat 0x03006E614D = .request (.enc3 0x4D 0x61 0x6E) :=
  ⟨rfl, room_of_waiting _ _, by decide⟩
theorem witness_IllegalRequestAnswersIll :
    (waiting .err 0x1541414141).reqQueue = 0x1541414141 :: [] ∧
    (waiting .err 0x1541414141).rspQueue.length < Config.rspDepth ∧
    opcOf 0x1541414141 ∉ [0x01, 0x02, 0x03, 0x11, 0x12, 0x13, 0x14, 0x18] :=
  ⟨rfl, room_of_waiting _ _, by decide⟩
theorem witness_FlowControl_room :
    State.reset.reqQueue.length < Config.reqDepth ∧ State.reset.rspQueue.length < Config.rspDepth ∧
    State.reset.reqQueue = [] := ⟨Config.reqDepth_pos, Config.rspDepth_pos, rfl⟩
theorem witness_FlowControl_crowded : Config.reqDepth ≤ crowdedState.reqQueue.length := by simp [crowdedState]
theorem witness_FlowControl_stalled :
    stalledState.reqQueue ≠ [] ∧ Config.rspDepth ≤ stalledState.rspQueue.length ∧
    stalledState.rspQueue.length = Config.rspDepth := by simp [stalledState]
theorem witness_FlowControl_take :
    ({ stateIn .opened with rspQueue := [0x1000000000] } : State).rspQueue = 0x1000000000 :: [] := rfl
/-- A response queue that is full, with room in the request queue. -/
theorem witness_FlowControl_full_response_queue :
    Config.rspDepth = ({ stalledState with reqQueue := [] } : State).rspQueue.length ∧
    ({ stalledState with reqQueue := [] } : State).reqQueue.length < Config.reqDepth :=
  ⟨by simp [stalledState], Config.reqDepth_pos⟩
theorem witness_ReadyBlockNeverHangs : Ready (waiting .opened 0x1800000000) :=
  ⟨by simp [waiting], room_of_waiting _ _⟩
theorem witness_StepConsumesOneAndAnswersOne :
    (∃ t, step (waiting .opened 0x1800000000) = .next t) ∧ ([] : List Beat).length < Config.rspDepth :=
  ⟨step_waiting _ _, Config.rspDepth_pos⟩
/-- One witness each for an illegal request, a DEND, and a decoder data request. -/
theorem witness_EveryResponseHasItsFields :
    (∃ t, step (waiting .opened 0x0000000000) = .next t) ∧ (∃ t, step (waiting .err 0x1800000000) = .next t) ∧
    (∃ t, step (waiting .closed 0x1441414141) = .next t) :=
  ⟨step_waiting _ _, step_waiting _ _, step_waiting _ _⟩
theorem witness_StepKeepsInv : Inv (waiting .err 0x1800000000) ∧ ∃ t, step (waiting .err 0x1800000000) = .next t :=
  ⟨inv_waiting _ _, step_waiting _ _⟩
theorem witness_EveryMoveKeepsInv :
    Inv (Session.start (stateIn .opened)).state ∧
    ∃ h', (Session.start (stateIn .opened)).move .assertReset = some h' :=
  ⟨inv_stateIn _, _, rfl⟩
theorem witness_FirstRequestAfterResetRuns : opcOf 0x1800000000 = 0x18 := by decide
theorem witness_FrameOfRequests :
    ∃ t, exec (.enc1 0x4D) (stateIn .closed) = .next t ∧ Instr.kind (.enc1 0x4D) = .encoder := ⟨_, rfl, rfl⟩
theorem witness_ForwardTable :
    (25#6).toNat < 26 ∧ 26 ≤ (26#6).toNat ∧ (51#6).toNat < 52 ∧ 52 ≤ (52#6).toNat ∧ (61#6).toNat < 62 ∧
    (62#6).toNat = 62 ∧ (63#6).toNat = 63 := by decide
theorem witness_InverseTable :
    (0x41 ≤ (0x5A#8).toNat ∧ (0x5A#8).toNat ≤ 0x5A) ∧ (0x61 ≤ (0x61#8).toNat ∧ (0x61#8).toNat ≤ 0x7A) ∧
    (0x30 ≤ (0x39#8).toNat ∧ (0x39#8).toNat ≤ 0x39) ∧ 0x7B ≤ (0x7B#8).toNat := by decide
theorem witness_Enc_Results : opcOf 0x03FFFFFFFF = 0x03 ∧ opcOf 0x02FFFFFFFF = 0x02 ∧ opcOf 0x01FFFFFFFF = 0x01 := by decide
theorem witness_EncoderHasNoState : Instr.kind (.enc2 0 0) = .encoder := rfl
theorem witness_EncoderIsInjective :
    Instr.kind (.enc1 0x4D) = .encoder ∧ exec (.enc1 0x4D) (stateIn .err) = exec (.enc1 0x4D) (stateIn .err) := ⟨rfl, rfl⟩
theorem witness_EncoderAndIllegalAreIdempotent :
    quiet (stateIn .closed) ∧ beatKind 0x0300000000 = some .encoder ∧ beatKind 0xFF00000000 = none :=
  ⟨quiet_stateIn _, by decide, by decide⟩
/-- The clauses of DEC4: `AAA-` fails, `TWFu` is full, `TWE=` has one pad, `TQ==` has two. -/
theorem witness_Dec4Result :
    opcOf 0x14FFFFFFFF = 0x14 ∧ (stateIn .err).decState = .err ∧ (stateIn .closed).decState = .closed ∧
    (stateIn .opened).decState = .opened ∧ check4 0x41 0x41 0x41 0x2D = .fail ∧
    inv 0x54 = .idx 19 ∧ inv 0x57 = .idx 22 ∧ inv 0x46 = .idx 5 ∧ inv 0x75 = .idx 46 ∧ inv 0x45 = .idx 4 ∧
    inv 0x51 = .idx 16 := by decide
theorem witness_PartialGroupsRaiseParseError :
    opcOf 0x11FFFFFFFF = 0x11 ∧ opcOf 0x12FFFFFFFF = 0x12 ∧ opcOf 0x13FFFFFFFF = 0x13 := by decide
theorem witness_DendResult :
    opcOf 0x18FFFFFFFF = 0x18 ∧ (stateIn .err).decState = .err ∧ (stateIn .closed).decState ≠ .err := by decide
theorem witness_FailedMessageIsSuppressed :
    Instr.kind (.dec4 0x41 0x41 0x41 0x41) = .decoderData ∧ (stateIn .err).decState = .err := by decide
/-- The clauses of the transitions: an ENC1, a DEND, a DEC1, a DEC4 in CLOSED, and the four outcomes of a DEC4 in OPEN. -/
theorem witness_DecoderTransitions :
    (∃ t, step (waiting .opened 0x1475465754) = .next t) ∧
    opcOf 0x0100000000 ∉ [0x11, 0x12, 0x13, 0x14, 0x18] ∧ opcOf 0x1800000000 = 0x18 ∧
    opcOf 0x1100000000 ∈ [0x11, 0x12, 0x13] ∧ (stateIn .closed).decState ≠ .opened ∧
    check4 0x54 0x57 0x46 0x75 = .full ∧ check4 0x54 0x57 0x45 0x3D = .pad1 ∧ check4 0x54 0x51 0x3D 0x3D = .pad2 ∧
    check4 0x41 0x3D 0x3D 0x3D = .fail :=
  ⟨step_waiting _ _, by decide, by decide, by decide, by decide, by decide, by decide, by decide, by decide⟩
theorem witness_ParseErrorRaisedExactly :
    (waiting .opened 0x1441414141).reqQueue = 0x1441414141 :: [] ∧ (waiting .opened 0x1441414141).decState ≠ .err ∧
    ∃ t, step (waiting .opened 0x1441414141) = .next t :=
  ⟨rfl, by decide, step_waiting _ _⟩
/-- ERR left by a DEND and by reset. -/
theorem witness_OnlyDendOrResetClearsErr :
    (Session.start (waiting .err 0x1800000000)).state.decState = .err ∧
    (∃ h', (Session.start (waiting .err 0x1800000000)).move .execute = some h' ∧ h'.state.decState ≠ .err) ∧
    (∃ h', (Session.start (waiting .err 0x1800000000)).move .assertReset = some h' ∧ h'.state.decState ≠ .err) := by
  refine ⟨rfl, ?_, _, rfl, by decide⟩
  have hs := step_of_cons (s := waiting .err 0x1800000000) rfl (room_of_waiting _ _)
  exact ⟨_, by simp only [Session.move, Session.start, hs]; rfl, by decide⟩
theorem witness_OnlyDecoderRequestsWriteDecState :
    ∃ h', (Session.start (stateIn .closed)).move .assertReset = some h' ∧
      h'.state.decState ≠ (Session.start (stateIn .closed)).state.decState := ⟨_, rfl, by decide⟩
theorem witness_OnlyDecoderRequestsWriteDecState_execute :
    ∃ h', (Session.start (waiting .opened 0x1100000041)).move .execute = some h' ∧
      h'.state.decState ≠ (Session.start (waiting .opened 0x1100000041)).state.decState := by
  have hs := step_of_cons (s := waiting .opened 0x1100000041) rfl (room_of_waiting _ _)
  exact ⟨_, by simp only [Session.move, Session.start, hs]; rfl, by decide⟩
theorem witness_PerrShowsErr :
    Instr.kind (.dec1 0x41) = .decoderData ∧ ∃ t, exec (.dec1 0x41) (stateIn .opened) = .next t := ⟨rfl, _, rfl⟩
/-- `//8=` and `//9=`, with `A/8=` beside them; `AA==` and `AP==`. -/
theorem witness_DontCareBits :
    (stateIn .opened).decState = .opened ∧ inv 0x2F = .idx 63 ∧ inv 0x38 = .idx 60 ∧ inv 0x39 = .idx 61 ∧
    inv 0x41 = .idx 0 ∧ inv 0x50 = .idx 15 := by decide
theorem witness_NoCharacterIsSkipped :
    (0x20 : Byte) ∈ [0x09, 0x0A, 0x0D, 0x20, 0x2D, 0x5F, 0x00] ∧ 0x80 ≤ (0x80#8).toNat ∧
    (0x20 : Byte) ∈ [0x41, 0x41, 0x20, 0x41] ∧ (stateIn .opened).decState = .opened :=
  ⟨by decide, by decide, by decide, rfl⟩
/-- Shared by EncstrGivesBase64, DecstrDecodesExactlyTheValidStrings, EncodeThenDecodeReturnsTheBytes and
InterleavingChangesNoResponse. -/
theorem witness_quiet_open : quiet (stateIn .opened) ∧ (stateIn .opened).decState = .opened := ⟨quiet_stateIn _, rfl⟩
theorem witness_MisplacedTailGivesNoValidString :
    quiet (stateIn .opened) ∧ (∀ k ∈ [] ++ Instr.enc1 0x4D :: Instr.enc3 0 0 0 :: [], k.kind = .encoder) ∧
    (Instr.enc1 0x4D).mnemonic = .enc1 := ⟨quiet_stateIn _, by decide, rfl⟩
theorem witness_ParseErrorIsPrecise :
    quiet (stateIn .opened) ∧ ∀ b ∈ [(0x1441414141 : Beat), 0x1100000041, 0x1441414141], beatKind b = some .decoderData :=
  ⟨quiet_stateIn _, by simp; decide⟩
theorem witness_AnyInterleavingServesInOrder :
    quiet (stateIn .opened) ∧ Move.assertReset ∉ [Move.issue 0x1800000000] ∧
    ∃ h, Session.run [Move.issue 0x1800000000] (Session.start (stateIn .opened)) = some h :=
  ⟨quiet_stateIn _, by decide, by simp [Session.run, Session.move, issue, accepting_iff, Session.start, stateIn, Config.reqDepth_pos, Config.rspDepth_pos]⟩
/-- A run in which one DEND is issued, executed and its response taken, and nothing happens after that. -/
def dendAct : Nat → Option Move
  | 0 => some (.issue 0x1800000000)
  | 1 => some .execute
  | 2 => some .take
  | _ + 3 => none

/-- The sessions of that run. -/
def dendRun : Nat → Session
  | 0 => Session.start (stateIn .opened)
  | 1 => { state := waiting .opened 0x1800000000, accepted := [0x1800000000], taken := [] }
  | 2 => { state := { stateIn .opened with rspQueue := [0x1000000000] }, accepted := [0x1800000000], taken := [] }
  | _ + 3 => { state := stateIn .opened, accepted := [0x1800000000], taken := [0x1000000000] }

theorem dendRun_isRun : IsRun dendAct dendRun
  | 0 => by simp [dendAct, dendRun, Session.move, issue, accepting_iff, Session.start, stateIn, waiting, Config.reqDepth_pos, Config.rspDepth_pos]
  | 1 => by
    have hs := step_of_cons (s := waiting .opened 0x1800000000) rfl (room_of_waiting _ _)
    simp only [dendAct, dendRun, turn_some, Session.move, hs]
    rfl
  | 2 => rfl
  | _ + 3 => rfl

theorem dendRun_fair : FairBlock dendAct dendRun
  | 0 => fun h => absurd rfl h.1
  | 1 => fun _ => ⟨1, le_rfl, .inl rfl⟩
  | 2 => fun h => absurd rfl h.1
  | _ + 3 => fun h => absurd rfl h.1

theorem dendRun_takes : TakingHost dendAct dendRun
  | 0 => fun h => absurd rfl h
  | 1 => fun h => absurd rfl h
  | 2 => fun _ => ⟨2, le_rfl, .inl rfl⟩
  | _ + 3 => fun h => absurd rfl h

theorem witness_FairBlockAnswersEveryRequest :
    quiet (stateIn .opened) ∧ dendRun 0 = Session.start (stateIn .opened) ∧ IsRun dendAct dendRun ∧
    FairBlock dendAct dendRun ∧ TakingHost dendAct dendRun ∧ (∀ k < 1, dendAct k ≠ some .assertReset) ∧
    (dendRun 1).accepted[0]? = some 0x1800000000 :=
  ⟨quiet_stateIn _, rfl, dendRun_isRun, dendRun_fair, dendRun_takes, by decide, rfl⟩
theorem witness_FairBlockExecutesWhenReady :
    IsRun dendAct dendRun ∧ FairBlock dendAct dendRun ∧ (dendRun 1).state.reqQueue = 0x1800000000 :: [] ∧
    (dendRun 1).state.rspQueue.length < Config.rspDepth :=
  ⟨dendRun_isRun, dendRun_fair, rfl, room_of_waiting _ _⟩
/-- A stalled block at which nothing happens. -/
theorem witness_UntakenResponsesStallForEver :
    IsRun (fun _ => none) (fun _ => Session.start stalledState) ∧
    Config.rspDepth ≤ (Session.start stalledState).state.rspQueue.length ∧
    ∀ k, 0 ≤ k → (fun _ : Nat => (none : Option Move)) k ≠ some .take ∧
      (fun _ : Nat => (none : Option Move)) k ≠ some .assertReset :=
  ⟨fun _ => rfl, by simp [Session.start, stalledState], fun _ _ => ⟨by simp, by simp⟩⟩
theorem witness_InstancesAreIndependent :
    ∃ p', Platform.move 1 .assertReset { blocks := [stateIn .closed, stateIn .err] } = some p' := ⟨_, rfl⟩
end

section
/-! PROOFS. One step (spec/00_scope.md R15): what it consumes, what it appends, and what it depends on. All of it follows from
the two laws `step_of_cons` and `step_next`: a step answers the oldest request with its `reply`. -/

namespace Sys2Proof.Machine

/-- The reply to a beat is that of the request it decodes to. -/
theorem reply_of_decodeBeat {b : Beat} {i : Instr} (hd : decodeBeat b = .request i) (d : DecState) :
    reply d b = replyTo d (.request i) := by
  rw [reply, hd]

/-- A step takes one beat off the front of the request queue and puts one behind the response queue. -/
theorem step_next_queues {s t : State} (h : step s = .next t) :
    ∃ (b : Beat) (rest : List Beat) (r : Beat),
      s.reqQueue = b :: rest ∧ t.reqQueue = rest ∧ t.rspQueue = s.rspQueue ++ [r] := by
  obtain ⟨b, rest, hq, -, rfl⟩ := step_next h
  exact ⟨b, rest, (reply s.decState b).2, hq, rfl, rfl⟩

/-- The `DEC_STATE` and the response of a step are the two components of `reply`, whatever else the queues hold. -/
theorem step_eq_reply (d : DecState) (b : Beat) (rest : List Beat) {rs : List Beat}
    (hroom : rs.length < Config.rspDepth) :
    step { decState := d, reqQueue := b :: rest, rspQueue := rs } =
      .next { decState := (reply d b).1, reqQueue := rest, rspQueue := rs ++ [(reply d b).2] } :=
  step_of_cons rfl hroom

/-- Settles O13: the first part by the inversion of a step, the second with `reply` as the function of beat and
`DEC_STATE`. -/
theorem stepConsumesOneAndAnswersOne : Obligations.StepConsumesOneAndAnswersOne :=
  ⟨fun _ _ h => step_next_queues h,
    fun b d => ⟨(reply d b).1, (reply d b).2, fun rest _ hroom => step_eq_reply d b rest hroom⟩⟩

/-- Settles O9: the step and `exec` give the same answer to the decoded request. -/
theorem stepRunsTheDecodedRequest : Obligations.StepRunsTheDecodedRequest := by
  intro s b rest i hq hroom hd
  calc step s
      = .next (answered { s with reqQueue := rest } (reply s.decState b)) := step_of_cons hq hroom
    _ = .next (answered { s with reqQueue := rest } (replyTo s.decState (.request i))) := by
        rw [reply_of_decodeBeat hd]
    _ = exec i { s with reqQueue := rest } := (exec_eq_answered i _).symm

end Sys2Proof.Machine
end

section
/-! PROOFS. What a reply depends on: the response of an encoder or illegal request on the beat alone, which leaves `DEC_STATE`
as it is (spec/10_state.md R24, R26, R32; spec/60_exceptions.md R133), and every response on the fields R67 and R68 allow. -/

namespace Sys2Proof.Machine

/-- A response that carries the four characters of an encoder group is one that R67 and R68 allow. -/
theorem rspWf_chars (data : Data) : rspWf (packResponse 4 data false false false) = true :=
  rspWf_packResponse (by decide) (fun _ hk h => absurd h (Nat.not_le.2 hk)) rfl rfl (by simp)

/-- A response that carries 1 to 3 decoded bytes is one that R67 and R68 allow: the lanes above them are zero. -/
theorem rspWf_bytes {len : BitVec 3} {bs : List Byte} (hlen : len.toNat ≤ 4) (hbs : bs.length = len.toNat) :
    rspWf (packResponse len (packBytes bs) false false false) = true :=
  rspWf_packResponse hlen (fun _ hk h => lane_packBytes_of_ge hk (hbs ▸ h)) rfl rfl (by simp)

/-- A response without an element is one that R67 and R68 allow when ILL excludes DONE and PERR. -/
theorem rspWf_empty {perr done ill : Bool} (hstatus : (ill && done) = false) (hperr : (ill && perr) = false) :
    rspWf (packResponse 0 0 perr done ill) = true :=
  rspWf_packResponse (Nat.zero_le _) (fun k _ _ => lane_zero k) hstatus hperr fun _ => rfl

/-- Every reply to a DEC4 carries the bytes of an accepted group, or none. -/
theorem rspWf_replyTo_dec4 (d : DecState) (c0 c1 c2 c3 : Byte) :
    rspWf (replyTo d (.request (.dec4 c0 c1 c2 c3))).2 = true := by
  simp only [replyTo]
  split
  · exact rspWf_bytes (by decide) rfl
  · exact rspWf_bytes (by decide) rfl
  · exact rspWf_bytes (by decide) rfl
  · exact rspWf_empty rfl rfl

/-- Every response is a beat that R67 and R68 allow. -/
theorem rspWf_replyTo (d : DecState) : ∀ dec : Decoded, rspWf (replyTo d dec).2 = true
  | .request (.enc1 _) => rspWf_chars _
  | .request (.enc2 _ _) => rspWf_chars _
  | .request (.enc3 _ _ _) => rspWf_chars _
  | .request (.dec1 _) => rspWf_empty rfl rfl
  | .request (.dec2 _ _) => rspWf_empty rfl rfl
  | .request (.dec3 _ _ _) => rspWf_empty rfl rfl
  | .request (.dec4 c0 c1 c2 c3) => rspWf_replyTo_dec4 d c0 c1 c2 c3
  | .request .dend => rspWf_empty rfl rfl
  | .illegal _ => rspWf_empty rfl rfl

/-- An encoder request has one reply for every `DEC_STATE`, four characters, and leaves `DEC_STATE` as it is (R26, R80). -/
theorem replyTo_of_encoder {i : Instr} (hi : i.kind = .encoder) :
    ∃ data : Data, ∀ d : DecState, replyTo d (.request i) = (d, packResponse 4 data false false false) := by
  cases i with
  | enc1 b0 => exact ⟨_, fun _ => rfl⟩
  | enc2 b0 b1 => exact ⟨_, fun _ => rfl⟩
  | enc3 b0 b1 b2 => exact ⟨_, fun _ => rfl⟩
  | dec1 | dec2 | dec3 | dec4 | dend => cases hi

theorem beatKind_eq_some_iff (b : Beat) (k : RequestKind) :
    beatKind b = some k ↔ ∃ i, decodeBeat b = .request i ∧ i.kind = k := by
  unfold beatKind
  cases decodeBeat b <;> simp

theorem beatKind_eq_none_iff (b : Beat) : beatKind b = none ↔ ∃ c, decodeBeat b = .illegal c := by
  unfold beatKind
  cases decodeBeat b <;> simp

/-- An illegal request is answered with ILL alone and leaves `DEC_STATE` as it is (R133). -/
theorem reply_of_illegal {b : Beat} (hb : beatKind b = none) (d : DecState) : reply d b = (d, 0x2000000000) := by
  obtain ⟨c, hc⟩ := (beatKind_eq_none_iff b).1 hb
  have hrsp : packResponse 0 0 false false true = 0x2000000000 := by decide
  rw [reply, hc, ← hrsp]
  rfl

/-- The reply to an encoder or illegal request depends on its beat alone, and leaves `DEC_STATE` as it is. -/
theorem reply_of_not_decoder {b : Beat} (hb : beatKind b = some .encoder ∨ beatKind b = none) :
    ∃ r : Beat, ∀ d : DecState, reply d b = (d, r) := by
  obtain he | hn := hb
  · obtain ⟨i, hi, hk⟩ := (beatKind_eq_some_iff b _).1 he
    obtain ⟨data, hdata⟩ := replyTo_of_encoder hk
    exact ⟨_, fun d => (reply_of_decodeBeat hi d).trans (hdata d)⟩
  · exact ⟨_, reply_of_illegal hn⟩

/-- The OPC of a beat is that of the request it decodes to (R62). -/
theorem opcOf_of_decodeBeat {b : Beat} {i : Instr} (h : decodeBeat b = .request i) : opcOf b = i.mnemonic.opc := by
  unfold decodeBeat at h
  split at h
  · next m hm =>
    cases h
    rw [Mnemonic.mnemonic_withLanes, Mnemonic.opc_of_ofOpc hm]
  · cases h

/-- The OPCs of the decoder's requests (R62). -/
theorem opc_of_decoder {i : Instr} (hi : i.kind ≠ .encoder) : i.mnemonic.opc ∈ [0x11, 0x12, 0x13, 0x14, 0x18] := by
  cases i with
  | enc1 | enc2 | enc3 => exact absurd rfl hi
  | dec1 | dec2 | dec3 | dec4 | dend => simp [Instr.mnemonic, Mnemonic.opc]

/-- A request whose reply has another `DEC_STATE` has an OPC of the decoder (R24, R32). -/
theorem opcOf_of_reply_ne {d : DecState} {b : Beat} (h : (reply d b).1 ≠ d) :
    opcOf b ∈ [0x11, 0x12, 0x13, 0x14, 0x18] := by
  cases hd : decodeBeat b with
  | illegal c => exact absurd (by rw [reply, hd]; rfl) h
  | request i =>
    rw [opcOf_of_decodeBeat hd]
    refine opc_of_decoder fun hi => h ?_
    obtain ⟨data, hdata⟩ := replyTo_of_encoder hi
    rw [reply_of_decodeBeat hd, hdata]

/-- Settles O21: the next state is the old one answered, and only the decoder's answers change `DEC_STATE`. -/
theorem frameOfRequests : Obligations.FrameOfRequests := by
  intro i s t h
  rw [exec_eq_answered] at h
  cases h
  refine ⟨rfl, ⟨_, rfl⟩, fun hi => ?_⟩
  obtain ⟨data, hdata⟩ := replyTo_of_encoder hi
  rw [answered_decState, hdata]

/-- Settles O28, by the one reply of an encoder request. -/
theorem encoderHasNoState : Obligations.EncoderHasNoState := by
  intro i hi
  obtain ⟨data, hdata⟩ := replyTo_of_encoder hi
  refine ⟨packResponse 4 data false false false, by simp, by simp, by simp, by simp, fun s => ?_⟩
  rw [exec_eq_answered, hdata]
  rfl

end Sys2Proof.Machine
end

section
/-! PROOFS. What every step and every move keeps: the bounds of the queues and the form of the queued responses (`Inv`;
spec/10_state.md R31, spec/30_encoding.md R67, R68), and which moves write `DEC_STATE` (R24, R32). -/

namespace Sys2Proof.Machine

/-- Answering the oldest request keeps the invariant: the request queue gets shorter, the response queue had room, and the
response is one that R67 and R68 allow. -/
theorem inv_answered {s : State} {b : Beat} {rest : List Beat} (hs : Inv s) (hq : s.reqQueue = b :: rest)
    (hroom : s.rspQueue.length < Config.rspDepth) :
    Inv (answered { s with reqQueue := rest } (reply s.decState b)) := by
  obtain ⟨hreq, -, hwf⟩ := hs
  refine ⟨?_, ?_, ?_⟩
  · rw [hq, List.length_cons] at hreq
    exact Nat.le_of_succ_le hreq
  · simpa using hroom
  · intro r hr
    obtain hr | hr := List.mem_append.1 hr
    · exact hwf r hr
    · rw [List.mem_singleton.1 hr]
      exact rspWf_replyTo _ _

theorem inv_reset : Inv State.reset := ⟨Nat.zero_le _, Nat.zero_le _, by simp⟩

/-- Settles O15, by the inversion of a step. -/
theorem stepKeepsInv : Obligations.StepKeepsInv := by
  intro s t hs h
  obtain ⟨b, rest, hq, hroom, rfl⟩ := step_next h
  exact inv_answered hs hq hroom

/-- Settles O17, move by move: an accepted request had room, and taking a response only shortens its queue. -/
theorem everyMoveKeepsInv : Obligations.EveryMoveKeepsInv := by
  intro m h h' hs hm
  obtain ⟨b, -, hreq, -, rfl⟩ | ⟨b, rest, -, hq, hroom, rfl⟩ | ⟨r, rs, -, hr, rfl⟩ | ⟨-, rfl⟩ := move_cases hm
  · obtain ⟨-, hrsp, hwf⟩ := hs
    exact ⟨by simpa using hreq, hrsp, hwf⟩
  · exact inv_answered hs hq hroom
  · obtain ⟨hreq, hrsp, hwf⟩ := hs
    rw [hr] at hrsp hwf
    exact ⟨hreq, Nat.le_of_succ_le hrsp, fun r' h' => hwf r' (List.mem_cons_of_mem r h')⟩
  · exact inv_reset

/-- Settles O39, move by move: an execution writes `DEC_STATE` only with an OPC of the decoder. -/
theorem onlyDecoderRequestsWriteDecState : Obligations.OnlyDecoderRequestsWriteDecState := by
  intro m h h' hm hne
  obtain ⟨b, -, -, -, rfl⟩ | ⟨b, rest, hexec, hq, -, rfl⟩ | ⟨r, rs, -, -, rfl⟩ | ⟨hreset, -⟩ := move_cases hm
  · exact absurd rfl hne
  · exact .inr ⟨hexec, b, rest, hq, opcOf_of_reply_ne hne⟩
  · exact absurd rfl hne
  · exact .inl hreset

/-- Settles O18: reset is the same move from every state. -/
theorem resetState : Obligations.ResetState := fun _ => ⟨rfl, rfl, rfl, rfl, rfl⟩

/-- Settles O24, the last clause state by state. -/
theorem decStateCodes : Obligations.DecStateCodes := by
  refine ⟨rfl, rfl, rfl, fun s => ?_⟩
  cases s.decState <;> decide

end Sys2Proof.Machine
end

section
/-! PROOFS. Interleaving encoder, decoder and illegal requests (spec/10_state.md R32): a beat that is no decoder request leaves
`DEC_STATE` and the open message as they are, so the decoder's part of a stream can be served alone, and so can the encoder's. -/

namespace Sys2Proof.Machine

/-- The beat is a request of the decoder unit (R61). -/
def ofDecoder (b : Beat) : Bool := beatKind b == some .decoderData || beatKind b == some .decoderEnd

/-- The beat is a request of the encoder unit (R61). -/
def ofEncoder (b : Beat) : Bool := beatKind b == some .encoder

theorem ofDecoder_eq_false_iff (b : Beat) :
    ofDecoder b = false ↔ beatKind b = some .encoder ∨ beatKind b = none := by
  unfold ofDecoder
  rcases beatKind b with _ | _ | _ | _ <;> decide

theorem ofEncoder_iff (b : Beat) : ofEncoder b = true ↔ beatKind b = some .encoder := beq_iff_eq

/-- `DEC_STATE` after a stream is that after its decoder requests alone. -/
theorem decAfter_filter_ofDecoder (d : DecState) (bs : List Beat) : decAfter d (bs.filter ofDecoder) = decAfter d bs := by
  induction bs generalizing d with
  | nil => rfl
  | cons b bs ih =>
    cases hb : ofDecoder b with
    | true => rw [List.filter_cons_of_pos hb, decAfter_cons, decAfter_cons, ih]
    | false =>
      obtain ⟨r, hr⟩ := reply_of_not_decoder ((ofDecoder_eq_false_iff b).1 hb)
      rw [List.filter_cons_of_neg (by simp [hb]), ih, decAfter_cons, hr]

/-- The decoder requests of a stream are answered as they are alone. -/
theorem filter_ofDecoder_zip_replies (d : DecState) (bs : List Beat) :
    (bs.zip (replies d bs)).filter (fun p => ofDecoder p.1) =
      (bs.filter ofDecoder).zip (replies d (bs.filter ofDecoder)) := by
  induction bs generalizing d with
  | nil => rfl
  | cons b bs ih =>
    rw [zip_replies_cons]
    cases hb : ofDecoder b with
    | true => rw [List.filter_cons_of_pos (by simp [hb]), List.filter_cons_of_pos hb, zip_replies_cons, ih]
    | false =>
      obtain ⟨r, hr⟩ := reply_of_not_decoder ((ofDecoder_eq_false_iff b).1 hb)
      rw [List.filter_cons_of_neg (by simp [hb]), List.filter_cons_of_neg (by simp [hb]), ih, hr]

/-- A stream of encoder requests leaves `DEC_STATE` as it is. -/
theorem decAfter_filter_ofEncoder (d : DecState) (bs : List Beat) : decAfter d (bs.filter ofEncoder) = d := by
  induction bs with
  | nil => rfl
  | cons b bs ih =>
    cases hb : ofEncoder b with
    | true =>
      obtain ⟨r, hr⟩ := reply_of_not_decoder (.inl ((ofEncoder_iff b).1 hb))
      rw [List.filter_cons_of_pos hb, decAfter_cons, hr, ih]
    | false => rw [List.filter_cons_of_neg (by simp [hb]), ih]

/-- The encoder requests of a stream are answered as they are alone, whatever `DEC_STATE` they are served in. -/
theorem filter_ofEncoder_zip_replies (d e : DecState) (bs : List Beat) :
    (bs.zip (replies d bs)).filter (fun p => ofEncoder p.1) =
      (bs.filter ofEncoder).zip (replies e (bs.filter ofEncoder)) := by
  induction bs generalizing d with
  | nil => rfl
  | cons b bs ih =>
    rw [zip_replies_cons]
    cases hb : ofEncoder b with
    | true =>
      obtain ⟨r, hr⟩ := reply_of_not_decoder (.inl ((ofEncoder_iff b).1 hb))
      rw [List.filter_cons_of_pos (by simp [hb]), List.filter_cons_of_pos hb, zip_replies_cons, ih, hr, hr]
    | false => rw [List.filter_cons_of_neg (by simp [hb]), List.filter_cons_of_neg (by simp [hb]), ih]

/-- Every illegal request of a stream is answered with ILL alone. -/
theorem illegal_mem_zip_replies {d : DecState} {bs : List Beat} {p : Beat × Beat} (hp : p ∈ bs.zip (replies d bs))
    (hk : beatKind p.1 = none) : p.2 = 0x2000000000 := by
  induction bs generalizing d with
  | nil => cases hp
  | cons b bs ih =>
    rw [zip_replies_cons] at hp
    obtain rfl | hp := List.mem_cons.1 hp
    · rw [reply_of_illegal hk]
    · exact ih hp

/-- The results of the messages are those of the decoder requests and their responses (R112). -/
theorem messageResults_filter_ofDecoder (acc : List Byte) (l : List (Beat × Beat)) :
    messageResults acc (l.filter fun p => ofDecoder p.1) = messageResults acc l := by
  induction l generalizing acc with
  | nil => rfl
  | cons p l ih =>
    obtain ⟨q, r⟩ := p
    cases hq : ofDecoder q with
    | false =>
      rw [List.filter_cons_of_neg (by simp [hq]), messageResults_other ((ofDecoder_eq_false_iff q).1 hq), ih]
    | true =>
      rw [List.filter_cons_of_pos (by simp [hq])]
      obtain hk | hk : beatKind q = some .decoderData ∨ beatKind q = some .decoderEnd := by simpa [ofDecoder] using hq
      · rw [messageResults_data hk, messageResults_data hk, ih]
      · rw [messageResults_end hk, messageResults_end hk, ih]

/-- Settles O47: each clause is the lemma above about that part of the stream. -/
theorem interleavingChangesNoResponse : Obligations.InterleavingChangesNoResponse := by
  rintro bs s ⟨hq, hr⟩
  have hdec := filter_ofDecoder_zip_replies s.decState bs
  refine ⟨replies s.decState bs, replies s.decState (bs.filter ofDecoder), replies s.decState (bs.filter ofEncoder),
    { s with decState := decAfter s.decState bs }, serve_of_quiet hq hr bs, ?_, ?_, hdec,
    filter_ofEncoder_zip_replies _ _ bs, fun p hp hk => illegal_mem_zip_replies hp hk, fun acc => ?_⟩
  · rw [← decAfter_filter_ofDecoder]
    exact serve_of_quiet hq hr _
  · have h := serve_of_quiet hq hr (bs.filter ofEncoder)
    rwa [decAfter_filter_ofEncoder] at h
  · calc messageResults acc (bs.zip (replies s.decState bs))
        = messageResults acc ((bs.zip (replies s.decState bs)).filter fun p => ofDecoder p.1) :=
          (messageResults_filter_ofDecoder _ _).symm
      _ = messageResults acc ((bs.filter ofDecoder).zip (replies s.decState (bs.filter ofDecoder))) := by rw [hdec]

end Sys2Proof.Machine
end

section
/-! PROOFS. The tables by the ranges of their rules (spec/10_state.md R27, R28). FWD is a list, so its ranges are read entry by
entry; INV is given by ranges, so its values follow from the order of the codes. -/

namespace Sys2Proof

theorem fwd_toNat_of_upper : ∀ i : Sixtet, i.toNat < 26 → (fwd i).toNat = 0x41 + i.toNat := by decide

theorem fwd_toNat_of_lower : ∀ i : Sixtet, 26 ≤ i.toNat → i.toNat < 52 → (fwd i).toNat = 0x61 + (i.toNat - 26) := by
  decide

theorem fwd_toNat_of_digit : ∀ i : Sixtet, 52 ≤ i.toNat → i.toNat < 62 → (fwd i).toNat = 0x30 + (i.toNat - 52) := by
  decide

/-- Settles O22, range by range. -/
theorem forwardTable : Obligations.ForwardTable := by
  refine fun i => ⟨fwd_toNat_of_upper i, fwd_toNat_of_lower i, fwd_toNat_of_digit i, fun h => ?_, fun h => ?_⟩
  · rw [BitVec.eq_of_toNat_eq (y := 62#6) h]
    rfl
  · rw [BitVec.eq_of_toNat_eq (y := 63#6) h]
    rfl

theorem inv_of_upper {c : Byte} (hlo : 0x41 ≤ c.toNat) (hhi : c.toNat ≤ 0x5A) :
    inv c = .idx (BitVec.ofNat 6 (c.toNat - 0x41)) := by
  have hc : 0x41 ≤ c ∧ c ≤ 0x5A := ⟨hlo, hhi⟩
  rw [inv, if_pos hc]
  congr 1
  bv_omega

theorem inv_of_lower {c : Byte} (hlo : 0x61 ≤ c.toNat) (hhi : c.toNat ≤ 0x7A) :
    inv c = .idx (BitVec.ofNat 6 (c.toNat - 0x61 + 26)) := by
  have hc : 0x61 ≤ c ∧ c ≤ 0x7A := ⟨hlo, hhi⟩
  rw [inv, if_neg (by bv_omega), if_pos hc]
  congr 1
  bv_omega

theorem inv_of_digit {c : Byte} (hlo : 0x30 ≤ c.toNat) (hhi : c.toNat ≤ 0x39) :
    inv c = .idx (BitVec.ofNat 6 (c.toNat - 0x30 + 52)) := by
  have hc : 0x30 ≤ c ∧ c ≤ 0x39 := ⟨hlo, hhi⟩
  rw [inv, if_neg (by bv_omega), if_neg (by bv_omega), if_pos hc]
  congr 1
  bv_omega

/-- A code between the ranges of R28 is INVALID. -/
theorem inv_of_gap {c : Byte} (h : c.toNat ≤ 0x2A ∨ 0x2C ≤ c.toNat ∧ c.toNat ≤ 0x2E ∨ 0x3A ≤ c.toNat ∧ c.toNat ≤ 0x3C ∨
    0x3E ≤ c.toNat ∧ c.toNat ≤ 0x40 ∨ 0x5B ≤ c.toNat ∧ c.toNat ≤ 0x60 ∨ 0x7B ≤ c.toNat) : inv c = .invalid := by
  rw [inv, if_neg (by bv_omega), if_neg (by bv_omega), if_neg (by bv_omega), if_neg (by bv_omega),
    if_neg (by bv_omega), if_neg (by bv_omega)]

/-- Settles O23, range by range; that INV inverts FWD is the law of the tables. -/
theorem inverseTable : Obligations.InverseTable := by
  refine ⟨fun c => ⟨inv_of_upper, inv_of_lower, inv_of_digit, ?_, ?_, ?_, inv_of_gap⟩, inv_fwd⟩
  · rintro rfl
    rfl
  · rintro rfl
    rfl
  · exact (inv_eq_pad_iff c).2

end Sys2Proof
end

section
/-! PROOFS. The order of service on one block, and that the blocks of a platform share no state (spec/20_memory.md R46, R47,
R49): the host's and the block's moves, however they interleave, serve the requests one at a time in order (`ServedInOrder`,
kept by every move but reset). -/

namespace Sys2Proof.Machine

/-- Settles O30: the two replies are the one of the beat, and leave `DEC_STATE` as it is. -/
theorem encoderAndIllegalAreIdempotent : Obligations.EncoderAndIllegalAreIdempotent := by
  rintro b s ⟨hq, hr⟩ hb
  obtain ⟨r, hreply⟩ := reply_of_not_decoder hb
  refine ⟨r, ?_⟩
  rw [serve_of_quiet hq hr]
  simp [replies, decAfter, hreply]

/-- What a session that began with empty queues and `DEC_STATE` = `d` has done: the accepted requests are those executed
followed by those waiting, and the responses and `DEC_STATE` are those of serving the executed ones in order. -/
def ServedInOrder (d : DecState) (h : Session) : Prop :=
  ∃ done : List Beat, h.accepted = done ++ h.state.reqQueue ∧
    h.taken ++ h.state.rspQueue = replies d done ∧ h.state.decState = decAfter d done

/-- A session that begins with empty queues has executed nothing. -/
theorem servedInOrder_start {s : State} (hs : quiet s) : ServedInOrder s.decState (Session.start s) := by
  obtain ⟨hq, hr⟩ := hs
  exact ⟨[], hq.symm, hr, rfl⟩

/-- Only an execution adds to the requests executed, and it adds the oldest one waiting. -/
theorem servedInOrder_move {d : DecState} {m : Move} {h h' : Session} (hs : ServedInOrder d h) (hne : m ≠ .assertReset)
    (hm : h.move m = some h') : ServedInOrder d h' := by
  obtain ⟨done, hacc, hrsp, hdec⟩ := hs
  obtain ⟨b, -, -, -, rfl⟩ | ⟨b, rest, -, hq, -, rfl⟩ | ⟨r, rs, -, hr, rfl⟩ | ⟨hreset, -⟩ := move_cases hm
  · exact ⟨done, by simp [hacc], hrsp, hdec⟩
  · refine ⟨done ++ [b], by simp [hacc, hq], ?_, ?_⟩
    · rw [replies_append, ← hrsp, ← hdec, answered_rspQueue, ← List.append_assoc]
      rfl
    · rw [decAfter_append, ← hdec]
      rfl
  · exact ⟨done, hacc, by simpa [hr] using hrsp, hdec⟩
  · exact absurd hreset hne

theorem run_cons {m : Move} {ms : List Move} {h h' : Session} (hrun : Session.run (m :: ms) h = some h') :
    ∃ h₁, h.move m = some h₁ ∧ Session.run ms h₁ = some h' := by
  cases hm : h.move m with
  | none => simp [Session.run, hm] at hrun
  | some h₁ => exact ⟨h₁, rfl, by simpa [Session.run, hm] using hrun⟩

/-- What holds of a session and is kept by each move of a sequence holds after the sequence. -/
theorem session_run_invariant {P : Session → Prop} {ms : List Move} {h h' : Session}
    (hmove : ∀ m ∈ ms, ∀ h h', P h → h.move m = some h' → P h') (h0 : P h) (hrun : Session.run ms h = some h') :
    P h' := by
  induction ms generalizing h with
  | nil => cases hrun; exact h0
  | cons m ms ih =>
    obtain ⟨h₁, hm, hrun⟩ := run_cons hrun
    exact ih (fun m' hm' => hmove m' (List.mem_cons_of_mem m hm')) (hmove m List.mem_cons_self _ _ h0 hm) hrun

/-- Settles O49, by the invariant `ServedInOrder`. -/
theorem anyInterleavingServesInOrder : Obligations.AnyInterleavingServesInOrder := by
  intro ms s h hs hreset hrun
  obtain ⟨done, hacc, hrsp, hdec⟩ : ServedInOrder s.decState h :=
    session_run_invariant (fun m hm _ _ hP => servedInOrder_move hP (ne_of_mem_of_not_mem hm hreset))
      (servedInOrder_start hs) hrun
  obtain ⟨hq, hr⟩ := hs
  exact ⟨done, hacc, by rw [serve_of_quiet hq hr, hrsp, hdec]⟩

/-- Everything a move at block `k` of a platform can have done: it puts the state the move gives that block in its place. -/
theorem platform_move_eq_some {k : Nat} {m : Move} {p p' : Platform} (hm : p.move k m = some p') :
    ∃ (s : State) (h : Session), p.blocks[k]? = some s ∧ (Session.start s).move m = some h ∧
      p' = { blocks := p.blocks.set k h.state } := by
  unfold Platform.move at hm
  split at hm
  · cases hm
  · next s hs =>
    split at hm
    · cases hm
    · next h hh => exact ⟨s, h, hs, hh, (Option.some.inj hm).symm⟩

/-- Settles O50: a move at block `k` sets entry `k` of the list of blocks. -/
theorem instancesAreIndependent : Obligations.InstancesAreIndependent := by
  intro k m p p' hm
  obtain ⟨s, h, hs, hh, rfl⟩ := platform_move_eq_some hm
  have hk : k < p.blocks.length := (List.getElem?_eq_some_iff.1 hs).1
  exact ⟨List.length_set, fun j hj => List.getElem?_set_ne hj.symm, s, h, hs, hh, List.getElem?_set_self hk⟩

end Sys2Proof.Machine
end

section
/-! PROOFS. Beats as numbers, and the decoder and the encoder on a request put together from its mnemonic and its lanes
(spec/30_encoding.md R60, R62, R63, R69). -/

namespace Sys2Proof

/-- A field put in above a part that ends below it adds its number, moved up to its place. -/
theorem toNat_setWidth_shiftLeft_or {w v n : Nat} (x : BitVec v) (y : BitVec w) (hvw : v + n ≤ w)
    (hy : y.toNat < 2 ^ n) : (x.setWidth w <<< n ||| y).toNat = x.toNat * 2 ^ n + y.toNat := by
  have hlt : x.toNat * 2 ^ n < 2 ^ w := by
    calc x.toNat * 2 ^ n < 2 ^ v * 2 ^ n := Nat.mul_lt_mul_of_pos_right x.isLt (Nat.two_pow_pos n)
      _ = 2 ^ (v + n) := (Nat.pow_add ..).symm
      _ ≤ 2 ^ w := Nat.pow_le_pow_right (by decide) hvw
  have hx : x.toNat < 2 ^ w := x.isLt.trans_le (Nat.pow_le_pow_right (by decide) (by omega))
  rw [BitVec.toNat_or, BitVec.toNat_shiftLeft, BitVec.toNat_setWidth, Nat.mod_eq_of_lt hx, Nat.shiftLeft_eq,
    Nat.mod_eq_of_lt hlt, Nat.mul_comm, ← Nat.two_pow_add_eq_or_of_lt hy]

/-- A data part as the number of its lanes (R42). -/
theorem packLanes_toNat (l0 l1 l2 l3 : Byte) :
    (packLanes l0 l1 l2 l3).toNat = l3.toNat * 2 ^ 24 + l2.toNat * 2 ^ 16 + l1.toNat * 2 ^ 8 + l0.toNat := by
  have h0 : (l0.setWidth 32).toNat = l0.toNat := BitVec.toNat_setWidth_of_le (by decide)
  have h1 := toNat_setWidth_shiftLeft_or (w := 32) (n := 8) l1 (l0.setWidth 32) (by decide) (by omega)
  have h2 := toNat_setWidth_shiftLeft_or (w := 32) (n := 16) l2 _ (by decide) (h1.trans_lt (by omega))
  have h3 := toNat_setWidth_shiftLeft_or (w := 32) (n := 24) l3 _ (by decide) (h2.trans_lt (by omega))
  rw [packLanes, BitVec.or_assoc, BitVec.or_assoc, h3]
  omega

/-- A request beat as the number of its OPC and its data part (R60). -/
theorem packRequest_toNat (opc : Byte) (d : Data) : (packRequest opc d).toNat = opc.toNat * 2 ^ 32 + d.toNat := by
  have hd : (d.setWidth 40).toNat = d.toNat := BitVec.toNat_setWidth_of_le (by decide)
  rw [packRequest, toNat_setWidth_shiftLeft_or opc _ (by decide) (by omega), hd]

/-- A response beat as the number of its fields (R67). -/
theorem packResponse_toNat (len : BitVec 3) (data : Data) (perr done ill : Bool) :
    (packResponse len data perr done ill).toNat =
      ill.toNat * 2 ^ 37 + done.toNat * 2 ^ 36 + perr.toNat * 2 ^ 35 + len.toNat * 2 ^ 32 + data.toNat := by
  have hd : (data.setWidth 40).toNat = data.toNat := BitVec.toNat_setWidth_of_le (by decide)
  have hl := toNat_setWidth_shiftLeft_or (w := 40) (n := 32) len (data.setWidth 40) (by decide) (by omega)
  have hp := toNat_setWidth_shiftLeft_or (w := 40) (n := 35) (.ofBool perr) _ (by decide) (hl.trans_lt (by omega))
  have he := toNat_setWidth_shiftLeft_or (w := 40) (n := 36) (.ofBool done) _ (by decide)
    (hp.trans_lt (by omega))
  have hi := toNat_setWidth_shiftLeft_or (w := 40) (n := 37) (.ofBool ill) _ (by decide)
    (he.trans_lt (by omega))
  rw [packResponse, BitVec.or_assoc, BitVec.or_assoc, BitVec.or_assoc, hi]
  simp only [BitVec.toNat_ofBool] at he hp hi ⊢
  omega

/-- A beat is its OPC and its four lanes. -/
theorem packRequest_lanes (b : Beat) :
    packRequest (opcOf b) (packLanes (laneOf b 0) (laneOf b 1) (laneOf b 2) (laneOf b 3)) = b := by
  rw [laneOf, laneOf, laneOf, laneOf, packLanes_lanes, packRequest_fields]

/-- Two beats with the same OPC and the same lanes are the same. -/
theorem beat_ext {b b' : Beat} (hopc : opcOf b = opcOf b') (hlanes : ∀ k < 4, laneOf b k = laneOf b' k) : b = b' := by
  rw [← packRequest_lanes b, ← packRequest_lanes b', hopc, hlanes 0 (by decide), hlanes 1 (by decide),
    hlanes 2 (by decide), hlanes 3 (by decide)]

/-- Settles O3: the number of a beat is that of its OPC and its lanes, and a beat is the packing of its own. -/
theorem requestBeatIsOpcAndLanes : Obligations.RequestBeatIsOpcAndLanes := by
  have hpack : ∀ opc l0 l1 l2 l3 : Byte, (packRequest opc (packLanes l0 l1 l2 l3)).toNat =
      opc.toNat * 2 ^ 32 + l3.toNat * 2 ^ 24 + l2.toNat * 2 ^ 16 + l1.toNat * 2 ^ 8 + l0.toNat := by
    intro opc l0 l1 l2 l3
    rw [packRequest_toNat, packLanes_toNat]
    omega
  refine ⟨hpack, fun b => ?_⟩
  rw [← hpack, packRequest_lanes]

theorem Mnemonic.arity_le_four (m : Mnemonic) : m.arity ≤ 4 := by cases m <;> decide

/-- The mnemonic of an OPC is the one whose OPC it is (R62). -/
theorem Mnemonic.ofOpc_eq_some_iff {c : Byte} {m : Mnemonic} : Mnemonic.ofOpc c = some m ↔ c = m.opc :=
  ⟨fun h => (Mnemonic.opc_of_ofOpc h).symm, fun h => h ▸ Mnemonic.ofOpc_opc m⟩

/-- The eight assigned OPCs, written out as in R62, are those of the mnemonics. -/
theorem mem_assignedOpcs_iff {c : Byte} :
    c ∈ [0x01, 0x02, 0x03, 0x11, 0x12, 0x13, 0x14, 0x18] ↔ ∃ m : Mnemonic, c = m.opc := by
  constructor
  · intro h
    obtain ⟨m, -, hm⟩ := List.mem_map.1 (show c ∈ Mnemonic.all.map Mnemonic.opc from h)
    exact ⟨m, hm.symm⟩
  · rintro ⟨m, rfl⟩
    cases m <;> decide

theorem Mnemonic.ofOpc_eq_none_iff {c : Byte} : Mnemonic.ofOpc c = none ↔ ∀ m : Mnemonic, c ≠ m.opc := by
  rw [Option.eq_none_iff_forall_ne_some]
  exact forall_congr' fun m => not_congr Mnemonic.ofOpc_eq_some_iff

/-- A beat with the OPC of a mnemonic decodes to the request of that mnemonic on its lanes (R62, R63). -/
theorem decodeBeat_of_opc {b : Beat} {m : Mnemonic} (h : opcOf b = m.opc) :
    decodeBeat b = .request (m.withLanes (dataOf b)) := by
  rw [decodeBeat, Mnemonic.ofOpc_eq_some_iff.2 h]

/-- A beat with no mnemonic's OPC decodes to illegal (R64). -/
theorem decodeBeat_of_forall_opc_ne {b : Beat} (h : ∀ m : Mnemonic, opcOf b ≠ m.opc) :
    decodeBeat b = .illegal (opcOf b) := by
  rw [decodeBeat, Mnemonic.ofOpc_eq_none_iff.2 h]

/-- A request is that of its mnemonic on the lanes of its own data part. -/
theorem Instr.withLanes_data (i : Instr) : i.mnemonic.withLanes i.data = i := by
  cases i <;> simp [Instr.mnemonic, Instr.data, Mnemonic.withLanes]

/-- Settles O1: decoding takes the operands back from the lanes that encoding put them in. -/
theorem decodeOfEncodeIsIdentity : Obligations.DecodeOfEncodeIsIdentity := by
  intro i _
  rw [encode, decodeBeat_packRequest, Instr.withLanes_data]

/-- Settles O2, OPC by OPC. -/
theorem opcodeMapIsComplete : Obligations.OpcodeMapIsComplete := fun _ =>
  ⟨decodeBeat_of_opc (m := .enc1), decodeBeat_of_opc (m := .enc2), decodeBeat_of_opc (m := .enc3),
    decodeBeat_of_opc (m := .dec1), decodeBeat_of_opc (m := .dec2), decodeBeat_of_opc (m := .dec3),
    decodeBeat_of_opc (m := .dec4), decodeBeat_of_opc (m := .dend),
    fun h => decodeBeat_of_forall_opc_ne (not_exists.1 (mt mem_assignedOpcs_iff.2 h))⟩

/-- Settles O4, by decoding the five words. -/
theorem writtenOutWordsDecode : Obligations.WrittenOutWordsDecode := by
  refine ⟨?_, ?_, ?_, ?_, ?_⟩ <;> decide

/-- The operands of a request are the first lanes of the data part it is taken from (R63). -/
theorem Mnemonic.operands_withLanes (m : Mnemonic) (d : Data) :
    (m.withLanes d).operands = (List.range m.arity).map (lane d) := by
  cases m <;> rfl

/-- Requests of one mnemonic with the same operands are the same. -/
theorem Mnemonic.withLanes_eq_of_operands {m : Mnemonic} {d d' : Data}
    (h : (m.withLanes d).operands = (m.withLanes d').operands) : m.withLanes d = m.withLanes d' := by
  cases m with
  | dend => rfl
  | enc1 | enc2 | enc3 | dec1 | dec2 | dec3 | dec4 => simpa [Mnemonic.withLanes, Instr.operands] using h

/-- The request of a mnemonic depends on the lanes it uses alone (R63). -/
theorem Mnemonic.withLanes_congr {m : Mnemonic} {d d' : Data} (h : ∀ k < m.arity, lane d k = lane d' k) :
    m.withLanes d = m.withLanes d' := by
  apply Mnemonic.withLanes_eq_of_operands
  rw [Mnemonic.operands_withLanes, Mnemonic.operands_withLanes]
  exact List.map_congr_left fun k hk => h k (List.mem_range.1 hk)

/-- Decoding depends on the OPC and on the operand lanes of its request alone (R62, R63). -/
theorem decodeBeat_congr {b b' : Beat} (hopc : opcOf b = opcOf b')
    (hlanes : ∀ m : Mnemonic, opcOf b = m.opc → ∀ k < m.arity, laneOf b k = laneOf b' k) :
    decodeBeat b = decodeBeat b' := by
  by_cases h : ∃ m : Mnemonic, opcOf b = m.opc
  · obtain ⟨m, hm⟩ := h
    rw [decodeBeat_of_opc hm, decodeBeat_of_opc (hopc ▸ hm), Mnemonic.withLanes_congr (hlanes m hm)]
  · have hne : ∀ m : Mnemonic, opcOf b ≠ m.opc := not_exists.1 h
    rw [decodeBeat_of_forall_opc_ne hne, decodeBeat_of_forall_opc_ne (hopc ▸ hne), hopc]

/-- A step on a beat depends on what the beat decodes to. -/
theorem step_congr_of_decodeBeat {b b' : Beat} (hd : decodeBeat b = decodeBeat b') (s : Machine.State) (rest : List Beat) :
    Machine.step { s with reqQueue := b :: rest } = Machine.step { s with reqQueue := b' :: rest } := by
  by_cases hroom : s.rspQueue.length < Config.rspDepth
  · have hreply : Machine.reply s.decState b = Machine.reply s.decState b' := congrArg (Machine.replyTo s.decState) hd
    exact (Machine.step_eq_reply s.decState b rest hroom).trans
      (hreply ▸ (Machine.step_eq_reply s.decState b' rest hroom).symm)
  · have hfull : Config.rspDepth ≤ s.rspQueue.length := Nat.not_lt.1 hroom
    have hfault : ∀ q : Beat, Machine.step { s with reqQueue := q :: rest } = .fault .responseQueueFull := fun q =>
      Machine.step_of_full (s := { s with reqQueue := q :: rest }) (List.cons_ne_nil q rest) hfull
    rw [hfault, hfault]

/-- Settles O5: the two beats decode to the same request or to the same illegal OPC. -/
theorem ignoredLanesHaveNoEffect : Obligations.IgnoredLanesHaveNoEffect :=
  fun _ _ hopc hlanes => step_congr_of_decodeBeat (decodeBeat_congr hopc hlanes)

end Sys2Proof
end

section
/-! PROOFS. Assembling a line from its operands, and disassembling a beat (spec/30_encoding.md R69, R72): the assembled beat has
the OPC of its mnemonic, the operand values in the first lanes and 0x00 in the others. -/

namespace Sys2Proof

/-- The data part of a request holds its operands in the first lanes (R63, R69). -/
theorem Instr.data_eq_packBytes (i : Instr) : i.data = packBytes i.operands := by cases i <;> rfl

@[simp] theorem Instr.operands_length (i : Instr) : i.operands.length = i.mnemonic.arity := by cases i <;> rfl

@[simp] theorem opcOf_encode (i : Instr) : opcOf (encode i) = i.mnemonic.opc := opcOf_packRequest _ _

theorem laneOf_encode (i : Instr) {k : Nat} (hk : k < 4) : laneOf (encode i) k = i.operands.getD k 0 := by
  rw [laneOf, encode, dataOf_packRequest, Instr.data_eq_packBytes, lane_packBytes _ hk]

/-- An operand lane keeps its value through the request (R63). -/
theorem laneOf_encode_withLanes {m : Mnemonic} (d : Data) {k : Nat} (hk : k < m.arity) :
    laneOf (encode (m.withLanes d)) k = lane d k := by
  rw [laneOf_encode _ (hk.trans_le m.arity_le_four), Mnemonic.operands_withLanes]
  simp [hk]

/-- An ignored lane is encoded as 0x00 (R69). -/
theorem laneOf_encode_withLanes_of_ge {m : Mnemonic} (d : Data) {k : Nat} (hk : k < 4) (hm : m.arity ≤ k) :
    laneOf (encode (m.withLanes d)) k = 0 := by
  rw [laneOf_encode _ hk, Mnemonic.operands_withLanes]
  simp [hm]

/-- Encoding the request of a beat gives the beat back exactly when its ignored lanes are 0 (R72). -/
theorem encode_withLanes_eq_iff {b : Beat} {m : Mnemonic} (h : opcOf b = m.opc) :
    encode (m.withLanes (dataOf b)) = b ↔ ∀ k < 4, m.arity ≤ k → laneOf b k = 0 := by
  constructor
  · intro he k hk hm
    rw [← he, laneOf_encode_withLanes_of_ge _ hk hm]
  · intro hzero
    refine beat_ext (by simp [h]) fun k hk => ?_
    by_cases hm : k < m.arity
    · exact laneOf_encode_withLanes _ hm
    · rw [laneOf_encode_withLanes_of_ge _ hk (Nat.not_lt.1 hm), hzero k hk (Nat.not_lt.1 hm)]

theorem allSome_eq_some_iff {vals : List (Option Byte)} {bs : List Byte} :
    allSome vals = some bs ↔ vals = bs.map some := by
  induction vals generalizing bs with
  | nil => cases bs <;> simp [allSome]
  | cons v vals ih =>
    cases v with
    | none => cases bs <;> simp [allSome]
    | some x =>
      have hrec : allSome (some x :: vals) = (allSome vals).map (x :: ·) := by
        rw [allSome]
        cases allSome vals <;> rfl
      rw [hrec, Option.map_eq_some_iff]
      cases bs with
      | nil => simp
      | cons y ys => simp [ih, and_comm]

/-- Everything a successful assembly of operand values can have done. -/
theorem assembleValues_eq_ok_iff {m : Mnemonic} {vals : List (Option Byte)} {b : Beat} :
    assembleValues m vals = .ok (some b) ↔
      ∃ bs : List Byte, vals = bs.map some ∧ bs.length = m.arity ∧ b = encode (m.withLanes (packBytes bs)) := by
  constructor
  · intro h
    unfold assembleValues at h
    split at h
    · next hlen =>
      split at h
      · next bs hbs =>
        cases h
        have hvals := allSome_eq_some_iff.1 hbs
        exact ⟨bs, hvals, by rw [← hlen, hvals, List.length_map], rfl⟩
      · cases h
    · cases h
  · rintro ⟨bs, rfl, hlen, rfl⟩
    rw [assembleValues, if_pos (by rw [List.length_map, hlen]), allSome_eq_some_iff.2 rfl]

theorem assembleValues_of_length_ne {m : Mnemonic} {vals : List (Option Byte)} (h : vals.length ≠ m.arity) :
    assembleValues m vals = .error .operandCount := if_neg h

/-- The fields of the beat that operand values assemble to (R69). -/
theorem assembleValues_fields {m : Mnemonic} {vals : List (Option Byte)} {b : Beat}
    (h : assembleValues m vals = .ok (some b)) :
    vals.length = m.arity ∧ opcOf b = m.opc ∧ (∀ k < m.arity, vals[k]? = some (some (laneOf b k))) ∧
      ∀ k < 4, m.arity ≤ k → laneOf b k = 0 := by
  obtain ⟨bs, rfl, hlen, rfl⟩ := assembleValues_eq_ok_iff.1 h
  refine ⟨by simpa using hlen, by simp, fun k hk => ?_, fun k hk hm => laneOf_encode_withLanes_of_ge _ hk hm⟩
  rw [laneOf_encode_withLanes _ hk, lane_packBytes _ (hk.trans_le m.arity_le_four)]
  simp [hlen, hk]

/-- Assembling a request with its operands as hex codes is encoding it (R69). -/
theorem assemble_request_hex (i : Instr) :
    assemble (.request i.mnemonic (i.operands.map .hex)) = .ok (some (encode i)) := by
  refine assembleValues_eq_ok_iff.2 ⟨i.operands, ?_, i.operands_length, ?_⟩
  · rw [List.map_map]
    rfl
  · rw [← Instr.data_eq_packBytes, Instr.withLanes_data]

theorem disassemble_of_request {b : Beat} {i : Instr} (h : decodeBeat b = .request i) :
    disassemble b = .request i.mnemonic (i.operands.map .hex) := by
  rw [disassemble, h]

theorem disassemble_of_illegal {b : Beat} {c : Byte} (h : decodeBeat b = .illegal c) :
    disassemble b = .beat c (dataOf b) := by
  rw [disassemble, h]

theorem assemble_beat (opc : Byte) (d : Data) : assemble (.beat opc d) = .ok (some (packRequest opc d)) := rfl

/-- Settles O6: assembling what a request disassembles to encodes the request, and `.beat` keeps the whole beat. -/
theorem disassemblyDeterminesTheBeat : Obligations.DisassemblyDeterminesTheBeat := by
  refine fun b => ⟨fun m hm => ?_, fun hne => ?_⟩
  · have hdis := disassemble_of_request (decodeBeat_of_opc hm)
    refine ⟨?_, encode (m.withLanes (dataOf b)), ?_, by simp [hm], fun k hk => laneOf_encode_withLanes _ hk,
      fun k hk hk' => laneOf_encode_withLanes_of_ge _ hk hk', encode_withLanes_eq_iff hm⟩
    · rw [hdis, Mnemonic.mnemonic_withLanes, Mnemonic.operands_withLanes, List.map_map]
      rfl
    · rw [hdis, assemble_request_hex]
  · have hdis := disassemble_of_illegal (decodeBeat_of_forall_opc_ne hne)
    exact ⟨hdis, by rw [hdis, assemble_beat, packRequest_fields]⟩

theorem Mnemonic.takesBytes_iff (m : Mnemonic) : m.takesBytes = true ↔ m ∈ [Mnemonic.enc1, .enc2, .enc3] := by
  cases m <;> decide

theorem Mnemonic.takesString_iff (m : Mnemonic) :
    m.takesString = true ↔ m ∈ [Mnemonic.dec1, .dec2, .dec3, .dec4] := by
  cases m <;> decide

/-- The byte written by a number that fits in a byte. -/
theorem ofNat_eq_byte_iff {n : Nat} (hn : n < 256) (v : Byte) : BitVec.ofNat 8 n = v ↔ v.toNat = n := by
  rw [← BitVec.toNat_inj, BitVec.toNat_ofNat, Nat.mod_eq_of_lt hn, eq_comm]

/-- A quoted character has a value exactly when it is ASCII, and then its code (R69). -/
theorem quotedValue_eq_some_iff (code : Nat) (v : Byte) :
    quotedValue code = some v ↔ v.toNat = code ∧ code < 128 := by
  unfold quotedValue
  by_cases h : code < 128
  · simp [h, ofNat_eq_byte_iff (h.trans (by decide))]
  · simp [h]

/-- A decimal operand has a value exactly as a byte of an encoder request (R69). -/
theorem operandValue_dec_eq_some_iff (m : Mnemonic) (n : Nat) (v : Byte) :
    operandValue m (.dec n) = some v ↔ m.takesBytes = true ∧ v.toNat = n := by
  have hv := v.isLt
  unfold operandValue
  by_cases h : n ≤ 255
  · simp [h, ofNat_eq_byte_iff (Nat.lt_succ_of_le h)]
  · simp only [h, and_false, if_false, reduceCtorEq, false_iff]
    omega

/-- Settles O8, with the fields of an assembled beat and the value of each form of operand. -/
theorem assemblerWritesOperandsAndZeros : Obligations.AssemblerWritesOperandsAndZeros := by
  refine fun m args => ⟨fun hlen => ?_, fun b hb => ?_, fun bs hvals hlen => ?_, fun _ => rfl, fun n hm v => ?_,
    fun n hm => ?_, quotedValue_eq_some_iff⟩
  · exact assembleValues_of_length_ne (by rwa [List.length_map])
  · obtain ⟨hlen, hfields⟩ := assembleValues_fields hb
    exact ⟨by rwa [List.length_map] at hlen, hfields⟩
  · exact ⟨_, assembleValues_eq_ok_iff.2 ⟨bs, hvals, hlen, rfl⟩⟩
  · rw [operandValue_dec_eq_some_iff, m.takesBytes_iff, and_iff_right hm]
  · refine Option.eq_none_iff_forall_ne_some.2 fun v hv => hm ?_
    exact m.takesBytes_iff.1 ((operandValue_dec_eq_some_iff m n v).1 hv).1

/-- The shorthand assembles the values of its quoted characters (R69). -/
theorem assemble_requestString {m : Mnemonic} (hm : m ∈ [Mnemonic.dec1, .dec2, .dec3, .dec4]) (codes : List Nat) :
    assemble (.requestString m codes) = assembleValues m (codes.map quotedValue) :=
  if_pos (m.takesString_iff.2 hm)

/-- ASCII characters have their codes as values. -/
theorem map_quotedValue_of_ascii {codes : List Nat} (h : ∀ c ∈ codes, c < 128) :
    codes.map quotedValue = (codes.map (BitVec.ofNat 8)).map some := by
  rw [List.map_map]
  exact List.map_congr_left fun c hc => if_pos (h c hc)

/-- Settles O54: the shorthand goes through the values of its characters, and `.beat` through the packing of a beat. -/
theorem stringShorthandAndRawBeat : Obligations.StringShorthandAndRawBeat := by
  refine ⟨fun m codes hm => ⟨?_, fun hlen => ?_, fun hlen hascii => ?_⟩, fun m codes hm => ?_,
    fun opc d => ⟨packRequest opc d, rfl, by simp, by simp⟩, fun b => by rw [assemble_beat, packRequest_fields]⟩
  · rw [assemble_requestString hm, assemble, List.map_map]
    rfl
  · rw [assemble_requestString hm]
    exact assembleValues_of_length_ne (by rwa [List.length_map])
  · have hb := assembleValues_eq_ok_iff.2 ⟨_, map_quotedValue_of_ascii hascii, by rwa [List.length_map], rfl⟩
    obtain ⟨-, hopc, hlanes, hzero⟩ := assembleValues_fields hb
    refine ⟨_, (assemble_requestString hm codes).trans hb, hopc, fun k hk => ?_, hzero⟩
    obtain ⟨c, hc, hv⟩ : ∃ c, codes[k]? = some c ∧ quotedValue c = some _ := by simpa using hlanes k hk
    rw [hc, ((quotedValue_eq_some_iff c _).1 hv).1]
  · exact if_neg (mt m.takesString_iff.1 hm)

end Sys2Proof
end

section
/-! PROOFS. The fields of a response (spec/30_encoding.md R67): a beat that R67 and R68 allow is the number of its fields, and
the status bits of a reply follow from the kind of the request, which is read off its OPC (R61, R62). -/

namespace Sys2Proof

/-- A response beat whose RSV is 0 is the packing of its other fields (R67). -/
theorem packResponse_fields {r : Beat} (h : rspRsv r = 0) :
    packResponse (rspLen r) (dataOf r) (rspPerr r) (rspDone r) (rspIll r) = r := by
  have h38 : r[38] = false := by simpa [rspRsv] using congrArg (·.getLsbD 0) h
  have h39 : r[39] = false := by simpa [rspRsv] using congrArg (·.getLsbD 1) h
  refine BitVec.eq_of_getLsbD_eq fun i hi => ?_
  simp only [packResponse, rspLen, dataOf, rspPerr, rspDone, rspIll, BitVec.getLsbD_extractLsb', BitVec.getLsbD_or,
    BitVec.getLsbD_shiftLeft, BitVec.getLsbD_setWidth, BitVec.getLsbD_ofBool]
  interval_cases i <;> simp [h38, h39]

/-- What R67 and R68 allow, taken apart. -/
theorem rspWf_fields {r : Beat} (h : rspWf r = true) :
    rspRsv r = 0 ∧ (rspLen r).toNat ≤ 4 ∧ (∀ k < 4, (rspLen r).toNat ≤ k → laneOf r k = 0) ∧
      ¬ (rspIll r = true ∧ rspDone r = true) := by
  simp only [rspWf, Bool.and_eq_true] at h
  obtain ⟨⟨⟨⟨⟨hrsv, hlen⟩, hstatus⟩, hlanes⟩, -⟩, -⟩ := h
  refine ⟨by simpa [rspRsvWf] using hrsv, by simpa [rspLenWf] using hlen, fun k hk hge => ?_, ?_⟩
  · have hk' := List.all_eq_true.1 hlanes k (List.mem_range.2 hk)
    simpa [Nat.not_lt.2 hge] using hk'
  · simpa [rspStatusWf, imp_iff_not_or] using hstatus

end Sys2Proof

namespace Sys2Proof.Machine

/-- The beats without a kind are those with an unassigned OPC (R64). -/
theorem beatKind_eq_none_iff_opcOf (b : Beat) :
    beatKind b = none ↔ opcOf b ∉ [0x01, 0x02, 0x03, 0x11, 0x12, 0x13, 0x14, 0x18] := by
  rw [beatKind_eq_none_iff, mem_assignedOpcs_iff]
  constructor
  · rintro ⟨c, hc⟩ ⟨m, hm⟩
    simp [decodeBeat_of_opc hm] at hc
  · exact fun h => ⟨_, decodeBeat_of_forall_opc_ne (not_exists.1 h)⟩

/-- A property of OPCs that marks the requests of one kind marks the beats of that kind. -/
theorem beatKind_eq_some_iff_opcOf {P : Byte → Prop} {k : RequestKind}
    (hkind : ∀ i : Instr, P i.mnemonic.opc ↔ i.kind = k)
    (hassigned : ∀ c, P c → c ∈ [0x01, 0x02, 0x03, 0x11, 0x12, 0x13, 0x14, 0x18]) (b : Beat) :
    beatKind b = some k ↔ P (opcOf b) := by
  rw [beatKind_eq_some_iff]
  constructor
  · rintro ⟨i, hi, hk⟩
    rw [opcOf_of_decodeBeat hi]
    exact (hkind i).2 hk
  · intro h
    obtain ⟨m, hm⟩ := mem_assignedOpcs_iff.1 (hassigned _ h)
    have hd := decodeBeat_of_opc hm
    exact ⟨_, hd, (hkind _).1 (opcOf_of_decodeBeat hd ▸ h)⟩

/-- The OPCs of the decoder data requests (R62, R112). -/
theorem beatKind_eq_decoderData_iff (b : Beat) :
    beatKind b = some .decoderData ↔ opcOf b ∈ [0x11, 0x12, 0x13, 0x14] := by
  refine beatKind_eq_some_iff_opcOf (P := (· ∈ [0x11, 0x12, 0x13, 0x14])) (fun i => ?_) (fun c hc => ?_) b
  · cases i <;> simp [Instr.mnemonic, Mnemonic.opc, Instr.kind]
  · exact List.Sublist.subset (by decide) hc

/-- The OPC of DEND (R62, R112). -/
theorem beatKind_eq_decoderEnd_iff (b : Beat) : beatKind b = some .decoderEnd ↔ opcOf b = 0x18 := by
  refine beatKind_eq_some_iff_opcOf (P := (· = 0x18)) (fun i => ?_) (fun c hc => ?_) b
  · cases i <;> simp [Instr.mnemonic, Mnemonic.opc, Instr.kind]
  · simp [hc]

/-- A decoder data request answers without ILL and DONE, with PERR exactly when it leaves ERR (R116). -/
theorem replyTo_of_decoderData {i : Instr} (hi : i.kind = .decoderData) (d : DecState) :
    ∃ (len : BitVec 3) (data : Data) (perr : Bool),
      (replyTo d (.request i)).2 = packResponse len data perr false false ∧
      (perr = true ↔ (replyTo d (.request i)).1 = .err) := by
  cases i with
  | enc1 | enc2 | enc3 | dend => cases hi
  | dec1 | dec2 | dec3 => exact ⟨0, 0, true, rfl, by simp [replyTo]⟩
  | dec4 c0 c1 c2 c3 =>
    simp only [replyTo]
    split
    · exact ⟨_, _, false, rfl, by simp⟩
    · exact ⟨_, _, false, rfl, by simp⟩
    · exact ⟨_, _, false, rfl, by simp⟩
    · exact ⟨_, _, true, rfl, by simp⟩

/-- DEND answers with DONE and the verdict, and leaves OPEN (R111). -/
theorem reply_of_decoderEnd {b : Beat} (hb : beatKind b = some .decoderEnd) (d : DecState) :
    reply d b = (.opened, packResponse 0 0 (perrOf d) true false) := by
  obtain ⟨i, hi, hk⟩ := (beatKind_eq_some_iff b _).1 hb
  rw [reply_of_decodeBeat hi]
  cases i with
  | dend => rfl
  | enc1 | enc2 | enc3 | dec1 | dec2 | dec3 | dec4 => cases hk

/-- The status bits of a reply by the kind of its request (R67). -/
theorem rspStatus_reply (d : DecState) (b : Beat) :
    (rspIll (reply d b).2 = true ↔ beatKind b = none) ∧
    (rspDone (reply d b).2 = true ↔ beatKind b = some .decoderEnd) ∧
    (rspPerr (reply d b).2 = true ↔
      beatKind b = some .decoderData ∧ (reply d b).1 = .err ∨ beatKind b = some .decoderEnd ∧ d = .err) := by
  rcases hb : beatKind b with _ | _ | _ | _
  · have hbits : rspIll 0x2000000000 = true ∧ rspDone 0x2000000000 = false ∧ rspPerr 0x2000000000 = false := by decide
    simpa [reply_of_illegal hb] using hbits
  · obtain ⟨i, hi, hk⟩ := (beatKind_eq_some_iff b _).1 hb
    obtain ⟨data, hdata⟩ := replyTo_of_encoder hk
    simp [reply_of_decodeBeat hi, hdata]
  · obtain ⟨i, hi, hk⟩ := (beatKind_eq_some_iff b _).1 hb
    obtain ⟨len, data, perr, hrsp, hperr⟩ := replyTo_of_decoderData hk d
    simp [reply_of_decodeBeat hi, hrsp, hperr]
  · simp [reply_of_decoderEnd hb]

/-- Settles O14: the response is the reply to the beat, which R67 and R68 allow, with its status bits by kind. -/
theorem everyResponseHasItsFields : Obligations.EveryResponseHasItsFields := by
  intro s t b rest hq h
  obtain ⟨b', rest', hq', -, rfl⟩ := step_next h
  obtain ⟨rfl, rfl⟩ := List.cons.inj (hq.symm.trans hq')
  obtain ⟨hill, hdone, hperr⟩ := rspStatus_reply s.decState b
  have hwf : rspWf (reply s.decState b).2 = true := rspWf_replyTo _ _
  obtain ⟨hrsv, hlen, hlanes, hstatus⟩ := rspWf_fields hwf
  refine ⟨(reply s.decState b).2, rfl, ?_, hrsv, ?_, ?_, ?_, hlen, hlanes, hstatus⟩
  · rw [← packResponse_toNat, packResponse_fields hrsv]
  · rw [hill, beatKind_eq_none_iff_opcOf]
  · rw [hdone, beatKind_eq_decoderEnd_iff]
  · rw [hperr, beatKind_eq_decoderData_iff, beatKind_eq_decoderEnd_iff, answered_decState]

end Sys2Proof.Machine
end

section
/-! PROOFS. Reading back the printed disassembly (spec/30_encoding.md R69, R72). A text is cut into its tokens by one rule for
each kind of token (`Lexes`), a hex literal is read as the number it was written from, and the tokens of a printed line give the
line. -/

namespace Sys2Proof

/-- The text has these tokens, whatever the fuel above its length. -/
def Lexes (t : List Char) (ts : List Token) : Prop := ∀ n, t.length < n → lex n t = some ts

/-- A text with the tokens of a line is read as that line. -/
theorem parseLine_of_lexes {t : List Char} {ts : List Token} {l : AsmLine} (ht : Lexes t ts)
    (hl : tokensLine ts = some l) : parseLine t = .ok l := by
  rw [parseLine, ht _ (Nat.lt_succ_self _)]
  simp only [hl]

theorem lexes_nil : Lexes [] []
  | 0, h => absurd h (Nat.lt_irrefl _)
  | _ + 1, _ => rfl

theorem lexes_space {t : List Char} {ts : List Token} (h : Lexes t ts) : Lexes (' ' :: t) ts
  | 0, hn => absurd hn (Nat.not_lt_zero _)
  | n + 1, hn => (h n (Nat.lt_of_succ_lt_succ hn) :)

theorem lexes_comma {t : List Char} {ts : List Token} (h : Lexes t ts) : Lexes (',' :: t) (.comma :: ts)
  | 0, hn => absurd hn (Nat.not_lt_zero _)
  | n + 1, hn => congrArg (Option.map (Token.comma :: ·)) (h n (Nat.lt_of_succ_lt_succ hn))

/-- A word character begins a word: none of the marks of a text is one. -/
theorem lex_wordChar {c : Char} (hc : isWordChar c = true) (n : Nat) (cs : List Char) :
    lex (n + 1) (c :: cs) =
      (lex n (cs.dropWhile isWordChar)).map (Token.word (c :: cs.takeWhile isWordChar) :: ·) := by
  have hmarks : c.toNat ≠ 0x3B ∧ ¬ (c.toNat = 0x20 ∨ c.toNat = 0x09) ∧ c.toNat ≠ 0x2C ∧ c.toNat ≠ 0x27 ∧
      c.toNat ≠ 0x22 := by
    simp only [isWordChar, Bool.or_eq_true, decide_eq_true_eq] at hc
    omega
  obtain ⟨hcomment, hblank, hcomma, hquote, hstring⟩ := hmarks
  simp only [lex, if_neg hcomment, if_neg hblank, if_neg hcomma, if_neg hquote, if_neg hstring, if_pos hc]

/-- Word characters up to a character that is none are one word. -/
theorem lexes_word {w t : List Char} {ts : List Token} (hne : w ≠ []) (hw : w.all isWordChar = true)
    (ht : t.head?.any isWordChar = false) (h : Lexes t ts) : Lexes (w ++ t) (.word w :: ts) := by
  intro n hn
  obtain ⟨c, cs, rfl⟩ := List.exists_cons_of_ne_nil hne
  obtain ⟨hc, hcs⟩ := List.forall_mem_cons.1 (List.all_eq_true.1 hw)
  obtain ⟨htake, hdrop⟩ : t.takeWhile isWordChar = [] ∧ t.dropWhile isWordChar = t := by
    cases t with
    | nil => exact ⟨rfl, rfl⟩
    | cons x xs =>
      have hx : isWordChar x = false := ht
      simp [hx]
  cases n with
  | zero => exact absurd hn (Nat.not_lt_zero _)
  | succ n =>
    have hlen : t.length < n := by
      simp only [List.cons_append, List.length_cons, List.length_append] at hn
      omega
    rw [List.cons_append, lex_wordChar hc, List.dropWhile_append_of_pos hcs, List.takeWhile_append_of_pos hcs, htake,
      hdrop, h n hlen, List.append_nil]
    rfl

/-- A word at the end of a text. -/
theorem lexes_lastWord {w : List Char} (hne : w ≠ []) (hw : w.all isWordChar = true) : Lexes w [.word w] := by
  have h := lexes_word hne hw rfl lexes_nil
  rwa [List.append_nil] at h

/-! ### Hex literals -/

theorem isWordChar_hexChar : ∀ d < 16, isWordChar (hexChar d) = true := by decide

theorem hexDigit_hexChar : ∀ d < 16, hexDigit (hexChar d) = some d := by decide

theorem all_isWordChar_hexChars (n v : Nat) : (hexChars n v).all isWordChar = true := by
  induction n generalizing v with
  | zero => rfl
  | succ n ih => simp [hexChars, ih, isWordChar_hexChar _ (Nat.mod_lt v (by decide : 16 > 0))]

@[simp] theorem hexChars_length (n v : Nat) : (hexChars n v).length = n := by
  induction n generalizing v with
  | zero => rfl
  | succ n ih => rw [hexChars, List.length_append, ih, List.length_singleton]

theorem number_append (base : Nat) (digit : Char → Option Nat) (acc : Nat) (xs ys : List Char) :
    number base digit acc (xs ++ ys) = (number base digit acc xs).bind (number base digit · ys) := by
  induction xs generalizing acc with
  | nil => rfl
  | cons c cs ih =>
    rw [List.cons_append, number, number]
    cases digit c with
    | none => rfl
    | some d => exact ih _

/-- The hex digits of a number are read as its remainder modulo the power of 16 they reach to. -/
theorem number_hexChars (acc n v : Nat) :
    number 16 hexDigit acc (hexChars n v) = some (acc * 16 ^ n + v % 16 ^ n) := by
  induction n generalizing v with
  | zero => simp [hexChars, number, Nat.mod_one]
  | succ n ih =>
    have hlast : ∀ a, number 16 hexDigit a [hexChar (v % 16)] = some (a * 16 + v % 16) := by
      intro a
      rw [number, hexDigit_hexChar _ (Nat.mod_lt _ (by decide))]
      rfl
    rw [hexChars, number_append, ih, Option.bind_some, hlast, pow_succ', Nat.mod_mul]
    congr 1
    ring

/-- The hex digits of a bit vector with four bits to a digit are read as its number. -/
theorem number_hexChars_toNat {w n : Nat} (x : BitVec w) (hw : 16 ^ n = 2 ^ w) :
    number 16 hexDigit 0 (hexChars n x.toNat) = some x.toNat := by
  rw [number_hexChars, hw, Nat.mod_eq_of_lt x.isLt, Nat.zero_mul, Nat.zero_add]

/-! ### A printed request -/

/-- The two characters before the digits of a hex literal. -/
theorem all_isWordChar_hexPrefix : ['0', 'x'].all isWordChar = true := by decide

theorem all_isWordChar_hexText (v : Byte) : (Operand.hex v).text.all isWordChar = true := by
  rw [Operand.text, List.all_append, all_isWordChar_hexPrefix, all_isWordChar_hexChars, Bool.and_self]

theorem hexText_ne_nil (v : Byte) : (Operand.hex v).text ≠ [] := List.cons_ne_nil _ _

theorem tokenOperand_hexText (v : Byte) : tokenOperand (.word (Operand.hex v).text) = some (.hex v) := by
  have hread : tokenOperand (.word (Operand.hex v).text) =
      (number 16 hexDigit 0 (hexChars 2 v.toNat)).map fun n => .hex (BitVec.ofNat 8 n) := rfl
  rw [hread, number_hexChars_toNat v (by decide)]
  simp

/-- The tokens of printed operands. -/
def hexTokens : List Byte → List Token
  | [] => []
  | [v] => [.word (Operand.hex v).text]
  | v :: w :: vs => .word (Operand.hex v).text :: .comma :: hexTokens (w :: vs)

theorem hexTokens_cons (v : Byte) (vs : List Byte) :
    ∃ ts, hexTokens (v :: vs) = .word (Operand.hex v).text :: ts := by
  cases vs <;> exact ⟨_, rfl⟩

theorem lexes_operandsText : ∀ vs : List Byte, Lexes (operandsText (vs.map .hex)) (hexTokens vs)
  | [] => lexes_nil
  | [v] => lexes_lastWord (hexText_ne_nil v) (all_isWordChar_hexText v)
  | v :: w :: vs => by
    have h := lexes_comma (lexes_space (lexes_operandsText (w :: vs)))
    have hword := lexes_word (hexText_ne_nil v) (all_isWordChar_hexText v) rfl h
    simpa [operandsText, hexTokens] using hword

theorem tokenOperands_hexTokens : ∀ vs : List Byte, tokenOperands (hexTokens vs) = some (vs.map .hex)
  | [] => rfl
  | [v] => by
    rw [hexTokens, tokenOperands, tokenOperand_hexText]
    rfl
  | v :: w :: vs => by
    obtain ⟨ts, hts⟩ := hexTokens_cons w vs
    have ih := tokenOperands_hexTokens (w :: vs)
    rw [hts] at ih
    rw [hexTokens, hts, tokenOperands, tokenOperand_hexText, ih]
    rfl

theorem requestTokens_hexTokens (m : Mnemonic) (vs : List Byte) :
    requestTokens m (hexTokens vs) = some (.request m (vs.map .hex)) := by
  unfold requestTokens
  split
  · next codes h =>
    cases vs with
    | nil => cases h
    | cons v vs =>
      obtain ⟨ts, hts⟩ := hexTokens_cons v vs
      cases hts.symm.trans h
  · rw [tokenOperands_hexTokens]
    rfl

theorem Mnemonic.all_isWordChar_text (m : Mnemonic) : m.text.all isWordChar = true := by cases m <;> decide

theorem Mnemonic.text_ne_nil (m : Mnemonic) : m.text ≠ [] := by cases m <;> decide

theorem Mnemonic.text_ne_beatText (m : Mnemonic) : m.text ≠ beatText := by cases m <;> decide

@[simp] theorem Mnemonic.ofText_text (m : Mnemonic) : Mnemonic.ofText m.text = some m := by cases m <;> decide

theorem tokensLine_mnemonic (m : Mnemonic) (ts : List Token) :
    tokensLine (.word m.text :: ts) = requestTokens m ts := by
  simp only [tokensLine, if_neg m.text_ne_beatText, Mnemonic.ofText_text]

theorem lexes_requestText (m : Mnemonic) :
    ∀ vs : List Byte, Lexes (AsmLine.request m (vs.map .hex)).text (.word m.text :: hexTokens vs)
  | [] => lexes_lastWord m.text_ne_nil m.all_isWordChar_text
  | v :: vs => by
    have h := lexes_word m.text_ne_nil m.all_isWordChar_text rfl (lexes_space (lexes_operandsText (v :: vs)))
    simpa [AsmLine.text] using h

/-- A printed request with hex operands reads back. -/
theorem parseLine_requestText (m : Mnemonic) (vs : List Byte) :
    parseLine (AsmLine.request m (vs.map .hex)).text = .ok (.request m (vs.map .hex)) :=
  parseLine_of_lexes (lexes_requestText m vs) (by rw [tokensLine_mnemonic, requestTokens_hexTokens])

/-! ### A printed `.beat` -/

/-- The literal after `.beat`, `0xOO_DDDDDDDD` (R69). -/
def beatLiteralText (opc : Byte) (data : Data) : List Char :=
  ['0', 'x'] ++ hexChars 2 opc.toNat ++ ['_'] ++ hexChars 8 data.toNat

theorem beatText_eq (opc : Byte) (data : Data) :
    (AsmLine.beat opc data).text = beatText ++ ' ' :: beatLiteralText opc data := by
  simp [AsmLine.text, beatLiteralText]

theorem all_isWordChar_beatLiteralText (opc : Byte) (data : Data) :
    (beatLiteralText opc data).all isWordChar = true := by
  have hunderscore : ['_'].all isWordChar = true := by decide
  rw [beatLiteralText, List.all_append, List.all_append, List.all_append, all_isWordChar_hexPrefix, hunderscore,
    all_isWordChar_hexChars, all_isWordChar_hexChars]
  rfl

theorem beatLiteral_beatLiteralText (opc : Byte) (data : Data) :
    beatLiteral (beatLiteralText opc data) = some (.beat opc data) := by
  have hopc : number 16 hexDigit 0 [hexChar (opc.toNat / 16 % 16), hexChar (opc.toNat % 16)] = some opc.toNat :=
    number_hexChars_toNat (n := 2) opc (by decide)
  have hdata := number_hexChars_toNat (n := 8) data (by decide)
  have htext : beatLiteralText opc data =
      '0' :: 'x' :: hexChar (opc.toNat / 16 % 16) :: hexChar (opc.toNat % 16) :: '_' :: hexChars 8 data.toNat := rfl
  rw [htext, beatLiteral, if_pos (hexChars_length _ _), hopc, hdata]
  simp

/-- A printed `.beat` reads back. -/
theorem parseLine_beatText (opc : Byte) (data : Data) :
    parseLine (AsmLine.beat opc data).text = .ok (.beat opc data) := by
  have hlit : Lexes (beatLiteralText opc data) [.word (beatLiteralText opc data)] :=
    lexes_lastWord (List.cons_ne_nil _ _) (all_isWordChar_beatLiteralText opc data)
  rw [beatText_eq]
  refine parseLine_of_lexes (lexes_word (by decide) (by decide) rfl (lexes_space hlit)) ?_
  rw [← beatLiteral_beatLiteralText opc data]
  rfl

/-- Settles O7: a request is printed with hex operands and any other beat as `.beat`, and both read back. -/
theorem printedDisassemblyReadsBack : Obligations.PrintedDisassemblyReadsBack := by
  intro b
  cases hd : decodeBeat b with
  | request i => rw [disassemble_of_request hd, parseLine_requestText]
  | illegal c => rw [disassemble_of_illegal hd, parseLine_beatText]

end Sys2Proof
end

section
/-! PROOFS. The answer of the encoder (spec/40_encoder.md R80 to R84): the four characters of a request, written out as in R81 to
R83, and the group they form for the decoder, which gives the operands back. -/

namespace Sys2Proof

/-! ### The sixtets of a group in the written-out form -/

theorem sixtetOf_groupWord_zero (b0 b1 b2 : Byte) : sixtetOf (groupWord b0 b1 b2) 0 = refSixtet0 b0 := by
  refine BitVec.eq_of_getLsbD_eq fun i hi => ?_
  simp only [sixtetOf, groupWord, refSixtet0, BitVec.getLsbD_extractLsb', BitVec.getLsbD_or, BitVec.getLsbD_shiftLeft,
    BitVec.getLsbD_setWidth, BitVec.getLsbD_ushiftRight]
  interval_cases i <;> simp

theorem sixtetOf_groupWord_one (b0 b1 b2 : Byte) : sixtetOf (groupWord b0 b1 b2) 1 = refSixtet1 b0 b1 := by
  refine BitVec.eq_of_getLsbD_eq fun i hi => ?_
  simp only [sixtetOf, groupWord, refSixtet1, BitVec.getLsbD_extractLsb', BitVec.getLsbD_or, BitVec.getLsbD_shiftLeft,
    BitVec.getLsbD_setWidth, BitVec.getLsbD_ushiftRight, BitVec.getLsbD_and]
  interval_cases i <;> simp

theorem sixtetOf_groupWord_two (b0 b1 b2 : Byte) : sixtetOf (groupWord b0 b1 b2) 2 = refSixtet2 b1 b2 := by
  refine BitVec.eq_of_getLsbD_eq fun i hi => ?_
  simp only [sixtetOf, groupWord, refSixtet2, BitVec.getLsbD_extractLsb', BitVec.getLsbD_or, BitVec.getLsbD_shiftLeft,
    BitVec.getLsbD_setWidth, BitVec.getLsbD_ushiftRight, BitVec.getLsbD_and]
  interval_cases i <;> simp

theorem sixtetOf_groupWord_three (b0 b1 b2 : Byte) : sixtetOf (groupWord b0 b1 b2) 3 = refSixtet3 b2 := by
  refine BitVec.eq_of_getLsbD_eq fun i hi => ?_
  simp only [sixtetOf, groupWord, refSixtet3, BitVec.getLsbD_extractLsb', BitVec.getLsbD_or, BitVec.getLsbD_shiftLeft,
    BitVec.getLsbD_setWidth, BitVec.getLsbD_and]
  interval_cases i <;> simp

/-! ### The characters of an encoder request -/

/-- The group word of a request's operands, the missing bytes counting as zero (R80). -/
def Instr.group (i : Instr) : BitVec 24 :=
  groupWord (i.operands.getD 0 0) (i.operands.getD 1 0) (i.operands.getD 2 0)

/-- Character k of the answer to an encoder request (R80). -/
def Instr.char (i : Instr) (k : Nat) : Byte := encChar i.mnemonic.arity i.group k

/-- The four characters of the answer to an encoder request (R80). -/
def Instr.chars (i : Instr) : List Byte := [i.char 0, i.char 1, i.char 2, i.char 3]

theorem chars_enc1 (b0 : Byte) :
    (Instr.enc1 b0).chars = [fwd (refSixtet0 b0), fwd (refSixtet1 b0 0), 0x3D, 0x3D] := by
  rw [← sixtetOf_groupWord_zero b0 0 0, ← sixtetOf_groupWord_one b0 0 0]
  rfl

theorem chars_enc2 (b0 b1 : Byte) :
    (Instr.enc2 b0 b1).chars = [fwd (refSixtet0 b0), fwd (refSixtet1 b0 b1), fwd (refSixtet2 b1 0), 0x3D] := by
  rw [← sixtetOf_groupWord_zero b0 b1 0, ← sixtetOf_groupWord_one b0 b1 0, ← sixtetOf_groupWord_two b0 b1 0]
  rfl

theorem chars_enc3 (b0 b1 b2 : Byte) :
    (Instr.enc3 b0 b1 b2).chars =
      [fwd (refSixtet0 b0), fwd (refSixtet1 b0 b1), fwd (refSixtet2 b1 b2), fwd (refSixtet3 b2)] := by
  rw [← sixtetOf_groupWord_zero b0 b1 b2, ← sixtetOf_groupWord_one b0 b1 b2, ← sixtetOf_groupWord_two b0 b1 b2,
    ← sixtetOf_groupWord_three b0 b1 b2]
  rfl

/-! ### The characters read back as a group -/

/-- INV reads a character of the alphabet as its sixtet and a filler as PAD (R80, R101). -/
theorem inv_encChar (n : Nat) (g : BitVec 24) (k : Nat) :
    inv (encChar n g k) = if k ≤ n then .idx (sixtetOf g k) else .pad := by
  unfold encChar
  split <;> simp

/-- The sixtets that the encoder does not send are zero (R80). -/
theorem sixtetOf_group_eq_zero {i : Instr} (hi : i.kind = .encoder) {k : Nat} (hk : k < 4) (hn : i.mnemonic.arity < k) :
    sixtetOf i.group k = 0 := by
  cases i with
  | enc1 b0 =>
    obtain rfl | rfl : k = 2 ∨ k = 3 := by simp [Instr.mnemonic, Mnemonic.arity] at hn; omega
    · exact sixtetOf_groupWord_two b0 0 0
    · exact sixtetOf_groupWord_three b0 0 0
  | enc2 b0 b1 =>
    obtain rfl : k = 3 := by simp [Instr.mnemonic, Mnemonic.arity] at hn; omega
    exact sixtetOf_groupWord_three b0 b1 0
  | enc3 b0 b1 b2 => simp [Instr.mnemonic, Mnemonic.arity] at hn; omega
  | dec1 | dec2 | dec3 | dec4 | dend => cases hi

theorem value_inv_char {i : Instr} (hi : i.kind = .encoder) {k : Nat} (hk : k < 4) :
    (inv (i.char k)).value = sixtetOf i.group k := by
  rw [Instr.char, inv_encChar]
  split
  · rfl
  · next hn => exact (sixtetOf_group_eq_zero hi hk (Nat.not_le.1 hn)).symm

/-- The byte join of the characters gives the group word back (R103: the inverse of R80). -/
theorem charsWord_chars {i : Instr} (hi : i.kind = .encoder) :
    charsWord (i.char 0) (i.char 1) (i.char 2) (i.char 3) = i.group := by
  rw [charsWord, value_inv_char hi (by decide), value_inv_char hi (by decide), value_inv_char hi (by decide),
    value_inv_char hi (by decide), joinWord_sixtets]

/-- The DEC4 of the four characters that an encoder request is answered with. -/
def Instr.regroup (i : Instr) : Instr := .dec4 (i.char 0) (i.char 1) (i.char 2) (i.char 3)

/-- What the group check finds of the characters of an encoder request; a decoder request has none. -/
def Instr.charsCheck : Instr → GroupCheck
  | .enc1 _ => .pad2
  | .enc2 _ _ => .pad1
  | .enc3 _ _ _ => .full
  | .dec1 _ => .fail
  | .dec2 _ _ => .fail
  | .dec3 _ _ _ => .fail
  | .dec4 _ _ _ _ => .fail
  | .dend => .fail

theorem Instr.charsCheck_eq_full_iff (i : Instr) : i.charsCheck = .full ↔ i.mnemonic = .enc3 := by
  cases i <;> simp [Instr.charsCheck, Instr.mnemonic]

theorem charsCheck_ne_fail {i : Instr} (hi : i.kind = .encoder) : i.charsCheck ≠ .fail := by
  cases i with
  | enc1 | enc2 | enc3 => simp [Instr.charsCheck]
  | dec1 | dec2 | dec3 | dec4 | dend => cases hi

theorem check4_chars {i : Instr} (hi : i.kind = .encoder) :
    check4 (i.char 0) (i.char 1) (i.char 2) (i.char 3) = i.charsCheck := by
  cases i with
  | enc1 | enc2 | enc3 =>
    simp [check4, Instr.char, inv_encChar, Instr.mnemonic, Mnemonic.arity, checkClasses, Instr.charsCheck]
  | dec1 | dec2 | dec3 | dec4 | dend => cases hi

theorem bytesOf_group {i : Instr} (hi : i.kind = .encoder) : bytesOf i.charsCheck i.group = i.operands := by
  cases i with
  | enc1 | enc2 | enc3 => simp [Instr.charsCheck, Instr.group, Instr.operands, bytesOf]
  | dec1 | dec2 | dec3 | dec4 | dend => cases hi

/-- Joining the characters of an encoder request gives its operands back. -/
theorem join4_chars {i : Instr} (hi : i.kind = .encoder) :
    join4 i.charsCheck (i.char 0) (i.char 1) (i.char 2) (i.char 3) = i.operands := by
  rw [join4, charsWord_chars hi, bytesOf_group hi]

end Sys2Proof

namespace Sys2Proof.Machine

/-- The response to an encoder request: LEN 4, its characters, no status bit (R80). -/
def encResponse (i : Instr) : Beat := packResponse 4 (packBytes i.chars) false false false

theorem replyTo_encoder {i : Instr} (hi : i.kind = .encoder) (d : DecState) :
    replyTo d (.request i) = (d, encResponse i) := by
  cases i with
  | enc1 | enc2 | enc3 => rfl
  | dec1 | dec2 | dec3 | dec4 | dend => cases hi

/-- What executing an encoder request does, in every state (R80). -/
theorem exec_encoder {i : Instr} (hi : i.kind = .encoder) (s : State) :
    exec i s = .next { s with rspQueue := s.rspQueue ++ [encResponse i] } := by
  rw [exec_eq_answered, replyTo_encoder hi]
  rfl

theorem laneOf_encResponse (i : Instr) {k : Nat} (hk : k < 4) : laneOf (encResponse i) k = i.chars.getD k 0 := by
  rw [laneOf, encResponse, dataOf_packResponse, lane_packBytes _ hk]

theorem rspBytes_encResponse (i : Instr) : rspBytes (encResponse i) = i.chars := rspBytes_chars _ _ _ _

/-- Settles O25: the characters of ENC3 are written out, and no entry of FWD is `=`. -/
theorem enc3Result : Obligations.Enc3Result := by
  refine ⟨fun _ => decodeBeat_of_opc (m := .enc3), fun b0 b1 b2 s => ?_, fun b0 b1 b2 s => ?_⟩
  · rw [exec_encoder rfl, encResponse, chars_enc3]
    rfl
  · refine ⟨_, exec_encoder rfl s, fun k hk => ?_⟩
    rw [laneOf_encResponse _ hk, chars_enc3]
    interval_cases k <;> exact fwd_ne_pad _

/-- The filler bits of a 2-byte tail are zero (R82). -/
theorem refSixtet2_zero_mod_four : ∀ b1 : Byte, (refSixtet2 b1 0).toNat % 4 = 0 := by decide

/-- Settles O26: the characters of ENC2 are written out, and the third is that of a sixtet with two filler bits. -/
theorem enc2Result : Obligations.Enc2Result := by
  refine ⟨fun _ => decodeBeat_of_opc (m := .enc2), fun b0 b1 s => ?_, fun b0 b1 s => ?_⟩
  · rw [exec_encoder rfl, encResponse, chars_enc2]
    rfl
  · have hlane := @laneOf_encResponse (.enc2 b0 b1)
    rw [chars_enc2] at hlane
    refine ⟨_, exec_encoder rfl s, hlane (k := 3) (by decide), fun k hk => ?_,
      refSixtet2 b1 0, refSixtet2_zero_mod_four b1, ?_⟩
    · rw [hlane (by omega)]
      interval_cases k <;> exact fwd_ne_pad _
    · rw [hlane (k := 2) (by decide)]
      exact inv_fwd _

/-- The second character of a 1-byte tail is that of 0, 16, 32 or 48 (R83). -/
theorem fwd_refSixtet1_zero_mem : ∀ b0 : Byte, fwd (refSixtet1 b0 0) ∈ [0x41, 0x51, 0x67, 0x77] := by decide

/-- Settles O27: the characters of ENC1 are written out, and the second is that of a sixtet with four filler bits. -/
theorem enc1Result : Obligations.Enc1Result := by
  refine ⟨fun _ => decodeBeat_of_opc (m := .enc1), fun b0 s => ?_, fun b0 s => ?_⟩
  · rw [exec_encoder rfl, encResponse, chars_enc1]
    rfl
  · have hlane := @laneOf_encResponse (.enc1 b0)
    rw [chars_enc1] at hlane
    refine ⟨_, exec_encoder rfl s, hlane (k := 2) (by decide), hlane (k := 3) (by decide), ?_⟩
    rw [hlane (k := 1) (by decide)]
    exact fwd_refSixtet1_zero_mem b0

/-! ### Injectivity -/

theorem encStr_operands {i : Instr} (hi : i.kind = .encoder) : encStr i.operands = [i] := by
  cases i with
  | enc1 | enc2 | enc3 => rfl
  | dec1 | dec2 | dec3 | dec4 | dend => cases hi

/-- An encoder request is determined by its operands: it is their ENCSTR. -/
theorem encoder_eq_of_operands {i j : Instr} (hi : i.kind = .encoder) (hj : j.kind = .encoder)
    (h : i.operands = j.operands) : i = j :=
  List.singleton_inj.1 (by rw [← encStr_operands hi, ← encStr_operands hj, h])

/-- The characters determine the request: the group check and the join read its operands from them (R84). -/
theorem encoder_eq_of_chars {i j : Instr} (hi : i.kind = .encoder) (hj : j.kind = .encoder)
    (h : i.chars = j.chars) : i = j := by
  obtain ⟨h0, h1, h2, h3⟩ : i.char 0 = j.char 0 ∧ i.char 1 = j.char 1 ∧ i.char 2 = j.char 2 ∧ i.char 3 = j.char 3 := by
    simpa [Instr.chars] using h
  refine encoder_eq_of_operands hi hj ?_
  rw [← join4_chars hi, ← join4_chars hj, ← check4_chars hi, ← check4_chars hj, h0, h1, h2, h3]

/-- Every four sixtets are those of the group of three bytes that they join to (R44, R84). -/
theorem exists_chars_enc3 (v0 v1 v2 v3 : Sixtet) :
    ∃ b0 b1 b2 : Byte, (Instr.enc3 b0 b1 b2).chars = [fwd v0, fwd v1, fwd v2, fwd v3] := by
  refine ⟨byteOf (joinWord v0 v1 v2 v3) 0, byteOf (joinWord v0 v1 v2 v3) 1, byteOf (joinWord v0 v1 v2 v3) 2, ?_⟩
  simp [Instr.chars, Instr.char, Instr.group, Instr.operands, Instr.mnemonic, Mnemonic.arity, encChar]

/-- Settles O29: a response has the characters of its request, which determine the request; and every four sixtets are those of
a group of three bytes. -/
theorem encoderIsInjective : Obligations.EncoderIsInjective := by
  refine ⟨fun i j s hi hj h => encoder_eq_of_chars hi hj ?_, fun v0 v1 v2 v3 => ?_⟩
  · have hrsp : encResponse i = encResponse j := by simpa [exec_encoder hi, exec_encoder hj] using h
    rw [← rspBytes_encResponse, hrsp, rspBytes_encResponse]
  · obtain ⟨b0, b1, b2, hchars⟩ := exists_chars_enc3 v0 v1 v2 v3
    refine ⟨b0, b1, b2, fun s => ?_⟩
    rw [exec_encoder rfl, encResponse, hchars]
    rfl

end Sys2Proof.Machine
end

section
/-! PROOFS. Streams of encoder requests (spec/40_encoder.md R85): each is answered with its own characters, and those of ENCSTR
are the base64 string of the bytes. -/

namespace Sys2Proof.Machine

theorem decodeBeat_encode (i : Instr) : decodeBeat (encode i) = .request i :=
  decodeOfEncodeIsIdentity i (by cases i <;> rfl)

theorem reply_encode (d : DecState) (i : Instr) : reply d (encode i) = replyTo d (.request i) :=
  reply_of_decodeBeat (decodeBeat_encode i) d

theorem beatKind_encode (i : Instr) : beatKind (encode i) = some i.kind :=
  (beatKind_eq_some_iff _ _).2 ⟨i, decodeBeat_encode i, rfl⟩

theorem beatsOf_append (is js : List Instr) : beatsOf (is ++ js) = beatsOf is ++ beatsOf js := List.map_append

/-- A stream of encoder requests leaves `DEC_STATE` as it is and is answered request by request (R26, R80). -/
theorem replies_encoders {is : List Instr} (his : ∀ i ∈ is, i.kind = .encoder) (d : DecState) :
    replies d (beatsOf is) = is.map encResponse ∧ decAfter d (beatsOf is) = d := by
  induction is with
  | nil => exact ⟨rfl, rfl⟩
  | cons i is ih =>
    obtain ⟨hi, his⟩ := List.forall_mem_cons.1 his
    obtain ⟨hrsp, hdec⟩ := ih his
    rw [beatsOf_cons, replies, decAfter_cons, reply_encode, replyTo_encoder hi]
    exact ⟨by rw [hrsp, List.map_cons], hdec⟩

theorem serve_encoders {is : List Instr} (his : ∀ i ∈ is, i.kind = .encoder) {s : State} (hs : quiet s) :
    serve (beatsOf is) s = some (is.map encResponse, s) := by
  obtain ⟨hq, hr⟩ := hs
  obtain ⟨hrsp, hdec⟩ := replies_encoders his s.decState
  rw [serve_of_quiet hq hr, hrsp, hdec]

/-- The characters that a stream of encoder requests is answered with. -/
theorem elementsOf_encResponses (is : List Instr) : elementsOf (is.map encResponse) = is.flatMap Instr.chars := by
  simp [elementsOf, List.flatMap_map, rspBytes_encResponse]

theorem flatMap_chars_length (is : List Instr) : (is.flatMap Instr.chars).length = 4 * is.length := by
  induction is with
  | nil => rfl
  | cons i is ih =>
    rw [List.flatMap_cons, List.length_append, ih, List.length_cons]
    simp [Instr.chars]
    omega

theorem kind_of_mem_encStr : ∀ (bytes : List Byte), ∀ i ∈ encStr bytes, i.kind = .encoder
  | _ :: _ :: _ :: rest => List.forall_mem_cons.2 ⟨rfl, kind_of_mem_encStr rest⟩
  | [_, _] => List.forall_mem_singleton.2 rfl
  | [_] => List.forall_mem_singleton.2 rfl
  | [] => List.forall_mem_nil _

theorem encStr_length : ∀ bytes : List Byte, (encStr bytes).length = (bytes.length + 2) / 3
  | _ :: _ :: _ :: rest => by
    rw [encStr, List.length_cons, encStr_length rest]
    simp only [List.length_cons]
    omega
  | [_, _] => by simp [encStr]
  | [_] => by simp [encStr]
  | [] => rfl

/-- The characters of ENCSTR are the base64 string of the bytes (R85). -/
theorem flatMap_chars_encStr : ∀ bytes : List Byte, (encStr bytes).flatMap Instr.chars = bytesToBase64 bytes
  | b0 :: b1 :: b2 :: rest => by
    rw [encStr, List.flatMap_cons, flatMap_chars_encStr rest, chars_enc3]
    rfl
  | [b0, b1] => chars_enc2 b0 b1
  | [b0] => chars_enc1 b0
  | [] => rfl

/-- A base64 string is characters of the alphabet and then its padding (R85). -/
theorem bytesToBase64_padding : ∀ bytes : List Byte,
    ∃ vs : List Sixtet, bytesToBase64 bytes = vs.map fwd ++ List.replicate ((3 - bytes.length % 3) % 3) 0x3D
  | b0 :: b1 :: b2 :: rest => by
    obtain ⟨vs, hvs⟩ := bytesToBase64_padding rest
    refine ⟨refSixtet0 b0 :: refSixtet1 b0 b1 :: refSixtet2 b1 b2 :: refSixtet3 b2 :: vs, ?_⟩
    have hlen : (b0 :: b1 :: b2 :: rest).length % 3 = rest.length % 3 := Nat.add_mod_right _ 3
    rw [bytesToBase64, hvs, hlen]
    rfl
  | [b0, b1] => ⟨[refSixtet0 b0, refSixtet1 b0 b1, refSixtet2 b1 0], rfl⟩
  | [b0] => ⟨[refSixtet0 b0, refSixtet1 b0 0], rfl⟩
  | [] => ⟨[], rfl⟩

theorem pad_not_mem_map_fwd (vs : List Sixtet) : 0x3D ∉ vs.map fwd := fun h => by
  obtain ⟨v, -, hv⟩ := List.mem_map.1 h
  exact fwd_ne_pad v hv

/-- Settles O43: the responses carry the characters of the requests, which are the base64 string. -/
theorem encstrGivesBase64 : Obligations.EncstrGivesBase64 := by
  intro bytes s hs
  have helems := elementsOf_encResponses (encStr bytes)
  refine ⟨(encStr bytes).map encResponse, serve_encoders (kind_of_mem_encStr bytes) hs, ?_, ?_, ?_, ?_⟩
  · rw [helems, flatMap_chars_encStr]
  · rw [helems, flatMap_chars_length, encStr_length, Nat.mul_comm]
  · rw [helems, flatMap_chars_encStr]
    obtain ⟨vs, hvs⟩ := bytesToBase64_padding bytes
    exact ⟨vs.map fwd, hvs, pad_not_mem_map_fwd vs⟩
  · rintro rfl
    exact ⟨rfl, rfl⟩

end Sys2Proof.Machine
end

section
/-! PROOFS. Decoding what the encoder answered (spec/40_encoder.md R86, R87): DECSTR sends the four characters of each encoder
request as one DEC4 (`Instr.regroup`), which in OPEN answers the operands of the request, and after a tail raises ParseError. -/

namespace Sys2Proof.Machine

/-! ### A decode message: data requests and a DEND -/

/-- The requests of a decode message are answered as its data requests and then with the verdict (R111). -/
theorem replies_message (d : DecState) (is : List Instr) :
    replies d (beatsOf (is ++ [.dend])) =
      replies d (beatsOf is) ++ [packResponse 0 0 (perrOf (decAfter d (beatsOf is))) true false] := by
  rw [beatsOf_append, replies_append, beatsOf_cons, replies, reply_encode]
  rfl

theorem decAfter_message (d : DecState) (is : List Instr) : decAfter d (beatsOf (is ++ [.dend])) = .opened := by
  rw [beatsOf_append, decAfter_append, beatsOf_cons, decAfter_cons, reply_encode]
  rfl

theorem serve_message {s : State} (hs : quiet s) (ho : s.decState = .opened) (is : List Instr) :
    serve (beatsOf (is ++ [.dend])) s = some (replies .opened (beatsOf (is ++ [.dend])), s) := by
  obtain ⟨hq, hr⟩ := hs
  rw [serve_of_quiet hq hr, decAfter_message, ho, ← ho]

/-- The result of a decode message: ParseError when its data requests leave ERR, and otherwise the bytes of their
responses (R112). -/
theorem messageResults_message {is : List Instr} (his : ∀ i ∈ is, i.kind = .decoderData) (d : DecState)
    (acc : List Byte) :
    messageResults acc ((beatsOf (is ++ [.dend])).zip (replies d (beatsOf (is ++ [.dend])))) =
      [if perrOf (decAfter d (beatsOf is)) then .parseError
        else .success (acc ++ elementsOf (replies d (beatsOf is)))] := by
  induction is generalizing d acc with
  | nil =>
    rw [List.nil_append, beatsOf_cons, zip_replies_cons, messageResults_end (beatKind_encode _), reply_encode]
    simp [replyTo, messageResults, decAfter, replies, elementsOf]
  | cons i is ih =>
    obtain ⟨hi, his⟩ := List.forall_mem_cons.1 his
    rw [List.cons_append, beatsOf_cons, zip_replies_cons, messageResults_data (by rw [beatKind_encode, hi]), ih his,
      beatsOf_cons, decAfter_cons, replies, elementsOf_cons, List.append_assoc]

/-! ### The characters of an encoder request as a group -/

theorem kind_of_mem_map_regroup (is : List Instr) : ∀ k ∈ is.map Instr.regroup, k.kind = .decoderData := by
  simp [Instr.regroup, Instr.kind]

/-- DECSTR of the characters of encoder requests is one DEC4 for each and a DEND (R71). -/
theorem decStr_flatMap_chars (is : List Instr) :
    decStr (is.flatMap Instr.chars) = is.map Instr.regroup ++ [.dend] := by
  induction is with
  | nil => rfl
  | cons i is ih =>
    rw [List.map_cons, List.cons_append, ← ih]
    rfl

/-- An accepted group in OPEN answers its bytes, and a padded one closes the message (R107). -/
theorem replyTo_dec4_opened {c0 c1 c2 c3 : Byte} (h : check4 c0 c1 c2 c3 ≠ .fail) :
    replyTo .opened (.request (.dec4 c0 c1 c2 c3)) =
      (if check4 c0 c1 c2 c3 = .full then .opened else .closed,
        packResponse (BitVec.ofNat 3 (join4 (check4 c0 c1 c2 c3) c0 c1 c2 c3).length)
          (packBytes (join4 (check4 c0 c1 c2 c3) c0 c1 c2 c3)) false false false) := by
  cases hc : check4 c0 c1 c2 c3 with
  | fail => exact absurd hc h
  | full | pad1 | pad2 => simp [replyTo, hc, join4, bytesOf]

/-- In OPEN the characters of an encoder request are accepted: they answer its operands, and a tail closes the message
(R107). -/
theorem reply_regroup_opened {i : Instr} (hi : i.kind = .encoder) :
    reply .opened (encode i.regroup) =
      (if i.mnemonic = .enc3 then .opened else .closed,
        packResponse (BitVec.ofNat 3 i.operands.length) (packBytes i.operands) false false false) := by
  have hcheck := check4_chars hi
  have hfail := charsCheck_ne_fail hi
  rw [reply_encode, Instr.regroup, replyTo_dec4_opened (by rwa [hcheck]), hcheck, join4_chars hi]
  simp only [Instr.charsCheck_eq_full_iff]

theorem rspBytes_reply_regroup {i : Instr} (hi : i.kind = .encoder) :
    rspBytes (reply .opened (encode i.regroup)).2 = i.operands := by
  rw [reply_regroup_opened hi]
  cases i with
  | enc1 | enc2 | enc3 => exact rspBytes_packBytes rfl (by simp [Instr.operands])
  | dec1 | dec2 | dec3 | dec4 | dend => cases hi

/-- The characters of one encoder request, decoded alone, give its operands and do not fail. -/
theorem regroup_singleton {i : Instr} (hi : i.kind = .encoder) :
    perrOf (decAfter .opened (beatsOf [i.regroup])) = false ∧
    elementsOf (replies .opened (beatsOf [i.regroup])) = i.operands := by
  rw [beatsOf_cons, decAfter_cons, replies, elementsOf_cons, rspBytes_reply_regroup hi, reply_regroup_opened hi]
  exact ⟨by split <;> rfl, List.append_nil _⟩

/-- The DEC4s of what ENCSTR was answered with answer its bytes and do not fail (R86). -/
theorem regroup_encStr : ∀ bytes : List Byte,
    perrOf (decAfter .opened (beatsOf ((encStr bytes).map Instr.regroup))) = false ∧
    elementsOf (replies .opened (beatsOf ((encStr bytes).map Instr.regroup))) = bytes
  | b0 :: b1 :: b2 :: rest => by
    obtain ⟨hperr, helems⟩ := regroup_encStr rest
    have hopen : (reply .opened (encode (Instr.enc3 b0 b1 b2).regroup)).1 = .opened := by
      rw [reply_regroup_opened rfl]
      rfl
    rw [encStr, List.map_cons, beatsOf_cons, decAfter_cons, replies, elementsOf_cons, rspBytes_reply_regroup rfl, hopen,
      helems]
    exact ⟨hperr, rfl⟩
  | [_, _] => regroup_singleton rfl
  | [_] => regroup_singleton rfl
  | [] => ⟨rfl, rfl⟩

/-- Settles O45: DECSTR sends the characters back group by group, and the message does not fail. -/
theorem encodeThenDecodeReturnsTheBytes : Obligations.EncodeThenDecodeReturnsTheBytes := by
  intro bytes s hs ho
  obtain ⟨hperr, helems⟩ := regroup_encStr bytes
  have hverdict : packResponse 0 0 false true false = 0x1000000000 := by decide
  refine ⟨_, replies .opened (beatsOf ((encStr bytes).map Instr.regroup ++ [.dend])),
    serve_encoders (kind_of_mem_encStr bytes) hs, ?_⟩
  rw [elementsOf_encResponses, decStr_flatMap_chars]
  refine ⟨serve_message hs ho _, ?_, ?_⟩
  · rw [messageResults_message (kind_of_mem_map_regroup _), hperr, helems]
    rfl
  · rw [replies_message, hperr, hverdict, List.getLast?_concat]

/-! ### A tail before another encoder request -/

/-- A DEC4 that does not find OPEN leaves ERR (R106, R107). -/
theorem reply_regroup_of_ne_opened {d : DecState} (hd : d ≠ .opened) (i : Instr) :
    (reply d (encode i.regroup)).1 = .err := by
  rw [reply_encode, Instr.regroup]
  cases d with
  | opened => exact absurd rfl hd
  | closed | err => rfl

/-- The DEC4 of a tail's characters does not leave OPEN (R105). -/
theorem reply_regroup_tail {i : Instr} (hi : i.kind = .encoder) (htail : i.mnemonic ≠ .enc3) (d : DecState) :
    (reply d (encode i.regroup)).1 ≠ .opened := by
  by_cases hd : d = .opened
  · simp [hd, reply_regroup_opened hi, htail]
  · simp [reply_regroup_of_ne_opened hd]

theorem decAfter_err_regroup (is : List Instr) : decAfter .err (beatsOf (is.map Instr.regroup)) = .err := by
  induction is with
  | nil => rfl
  | cons i is ih => rw [List.map_cons, beatsOf_cons, decAfter_cons, reply_regroup_of_ne_opened (by decide), ih]

/-- Another group after that of a tail fails the message (R87). -/
theorem decAfter_regroup_of_tail (before after : List Instr) {i : Instr} (j : Instr) (hi : i.kind = .encoder)
    (htail : i.mnemonic ≠ .enc3) (d : DecState) :
    decAfter d (beatsOf ((before ++ i :: j :: after).map Instr.regroup)) = .err := by
  rw [List.map_append, beatsOf_append, decAfter_append, List.map_cons, List.map_cons, beatsOf_cons, beatsOf_cons,
    decAfter_cons, decAfter_cons, reply_regroup_of_ne_opened (reply_regroup_tail hi htail _), decAfter_err_regroup]

/-- The last character of a tail is `=` (R82, R83). -/
theorem char_three_of_tail {i : Instr} (hi : i.kind = .encoder) (htail : i.mnemonic ≠ .enc3) : i.char 3 = 0x3D := by
  cases i with
  | enc1 | enc2 => rfl
  | enc3 => exact absurd rfl htail
  | dec1 | dec2 | dec3 | dec4 | dend => cases hi

/-- A tail before another encoder request leaves a `=` before the final two positions (R87). -/
theorem exists_pad_of_tail (before after : List Instr) {i : Instr} (j : Instr) (hi : i.kind = .encoder)
    (htail : i.mnemonic ≠ .enc3) :
    ∃ n < ((before ++ i :: j :: after).flatMap Instr.chars).length - 2,
      ((before ++ i :: j :: after).flatMap Instr.chars)[n]? = some 0x3D := by
  refine ⟨(before.flatMap Instr.chars).length + 3, ?_, ?_⟩
  · simp only [flatMap_chars_length, List.length_append, List.length_cons]
    omega
  · rw [List.flatMap_append, List.flatMap_cons, List.getElem?_append_right (Nat.le_add_right _ _), Nat.add_sub_cancel_left,
      ← char_three_of_tail hi htail]
    rfl

/-- Settles O46: the `=` of the tail stands where R100 allows none, and the group after the tail's finds a message that is not
OPEN. -/
theorem misplacedTailGivesNoValidString : Obligations.MisplacedTailGivesNoValidString := by
  intro before after i j s hs henc htail
  have hi : i.kind = .encoder := henc i (by simp)
  have hne : i.mnemonic ≠ .enc3 := by rcases htail with h | h <;> simp [h]
  have hpad := exists_pad_of_tail before after j hi hne
  refine ⟨_, serve_encoders henc hs, fun n k r hk hr => ?_, ?_⟩
  · rw [List.getElem?_map, hk] at hr
    obtain rfl : encResponse k = r := Option.some.inj hr
    exact serve_encoders (is := [k]) (List.forall_mem_singleton.2 (henc k (List.mem_of_getElem? hk))) hs
  · rw [elementsOf_encResponses, decStr_flatMap_chars]
    refine ⟨hpad, fun ⟨_, _, hmiddle, _⟩ => ?_, fun ho => ⟨_, serve_message hs ho _, ?_⟩⟩
    · obtain ⟨n, hn, heq⟩ := hpad
      exact hmiddle n hn heq
    · rw [messageResults_message (kind_of_mem_map_regroup _), decAfter_regroup_of_tail _ _ _ hi hne]
      rfl

end Sys2Proof.Machine
end

section
/-! PROOFS. A group of four characters on its own (spec/41_decoder.md R102, R103): what the group check says of it, by its
characters, and the bytes it joins to, in the written-out form. -/

namespace Sys2Proof

/-! ### The group check -/

/-- A character of the alphabet is one that is neither INVALID nor `=` (R28). -/
theorem exists_inv_idx_iff (c : Byte) : (∃ v, inv c = .idx v) ↔ inv c ≠ .invalid ∧ c ≠ 0x3D := by
  rw [ne_eq c, ← inv_eq_pad_iff]
  cases inv c <;> simp

theorem ne_pad_of_inv {c : Byte} {v : Sixtet} (h : inv c = .idx v) : c ≠ 0x3D :=
  ((exists_inv_idx_iff c).1 ⟨v, h⟩).2

/-- Settles O31, test by test in the order of R102: a character that passes them all is in the
alphabet. -/
theorem groupCheckOutcomes : Obligations.GroupCheckOutcomes := by
  intro c0 c1 c2 c3
  have hpad2 := inv_eq_pad_iff c2
  have hpad3 := inv_eq_pad_iff c3
  simp only [List.exists_mem_cons_iff, List.not_mem_nil, false_and, exists_false, or_false, exists_and_left,
    exists_and_right, exists_inv_idx_iff, check4, checkClasses, inv_eq_pad_iff]
  split_ifs with hinvalid hfirst hlone htwo hone <;> grind

/-! ### The byte join -/

theorem byteOf_joinWord_zero (v0 v1 v2 v3 : Sixtet) : byteOf (joinWord v0 v1 v2 v3) 0 = refByte0 v0 v1 := by
  refine BitVec.eq_of_getLsbD_eq fun i hi => ?_
  simp only [byteOf, joinWord, refByte0, BitVec.getLsbD_extractLsb', BitVec.getLsbD_or, BitVec.getLsbD_shiftLeft,
    BitVec.getLsbD_setWidth, BitVec.getLsbD_ushiftRight]
  interval_cases i <;> simp

theorem byteOf_joinWord_one (v0 v1 v2 v3 : Sixtet) : byteOf (joinWord v0 v1 v2 v3) 1 = refByte1 v1 v2 := by
  refine BitVec.eq_of_getLsbD_eq fun i hi => ?_
  simp only [byteOf, joinWord, refByte1, BitVec.getLsbD_extractLsb', BitVec.getLsbD_or, BitVec.getLsbD_shiftLeft,
    BitVec.getLsbD_setWidth, BitVec.getLsbD_ushiftRight, BitVec.getLsbD_and]
  interval_cases i <;> simp

theorem byteOf_joinWord_two (v0 v1 v2 v3 : Sixtet) : byteOf (joinWord v0 v1 v2 v3) 2 = refByte2 v2 v3 := by
  refine BitVec.eq_of_getLsbD_eq fun i hi => ?_
  simp only [byteOf, joinWord, refByte2, BitVec.getLsbD_extractLsb', BitVec.getLsbD_or, BitVec.getLsbD_shiftLeft,
    BitVec.getLsbD_setWidth, BitVec.getLsbD_and]
  interval_cases i <;> simp

/-- The join of an accepted group gives the bytes of the group in the written-out form (R103). -/
theorem join4_check4 {c0 c1 c2 c3 : Byte} (h : check4 c0 c1 c2 c3 ≠ .fail) :
    join4 (check4 c0 c1 c2 c3) c0 c1 c2 c3 = refGroupBytes c0 c1 c2 c3 := by
  obtain ⟨-, hpad2, hpad1, hfull⟩ := groupCheckOutcomes c0 c1 c2 c3
  rw [join4, charsWord]
  cases hc : check4 c0 c1 c2 c3 with
  | fail => exact absurd hc h
  | pad2 =>
    obtain ⟨-, h2, -⟩ := hpad2.1 hc
    rw [refGroupBytes, if_pos h2, bytesOf, byteOf_joinWord_zero]
  | pad1 =>
    obtain ⟨⟨_, _, _, -, -, h2⟩, h3⟩ := hpad1.1 hc
    rw [refGroupBytes, if_neg (ne_pad_of_inv h2), if_pos h3, bytesOf, byteOf_joinWord_zero, byteOf_joinWord_one]
  | full =>
    obtain ⟨_, _, _, _, -, -, h2, h3⟩ := hfull.1 hc
    rw [refGroupBytes, if_neg (ne_pad_of_inv h2), if_neg (ne_pad_of_inv h3), bytesOf, byteOf_joinWord_zero,
      byteOf_joinWord_one, byteOf_joinWord_two]

/-! ### The bytes of a group by its sixtets -/

section
variable {c0 c1 c2 c3 : Byte} {v0 v1 v2 v3 : Sixtet}

theorem refGroupBytes_full (h0 : inv c0 = .idx v0) (h1 : inv c1 = .idx v1) (h2 : inv c2 = .idx v2)
    (h3 : inv c3 = .idx v3) :
    refGroupBytes c0 c1 c2 c3 = [refByte0 v0 v1, refByte1 v1 v2, refByte2 v2 v3] := by
  rw [refGroupBytes, if_neg (ne_pad_of_inv h2), if_neg (ne_pad_of_inv h3), h0, h1, h2, h3]
  rfl

theorem refGroupBytes_pad1 (h0 : inv c0 = .idx v0) (h1 : inv c1 = .idx v1) (h2 : inv c2 = .idx v2) :
    refGroupBytes c0 c1 c2 0x3D = [refByte0 v0 v1, refByte1 v1 v2] := by
  rw [refGroupBytes, if_neg (ne_pad_of_inv h2), if_pos rfl, h0, h1, h2]
  rfl

theorem refGroupBytes_pad2 (h0 : inv c0 = .idx v0) (h1 : inv c1 = .idx v1) :
    refGroupBytes c0 c1 0x3D c3 = [refByte0 v0 v1] := by
  rw [refGroupBytes, if_pos rfl, h0, h1]
  rfl

end

theorem refGroupBytes_length_le (c0 c1 c2 c3 : Byte) : (refGroupBytes c0 c1 c2 c3).length ≤ 3 := by
  unfold refGroupBytes
  split_ifs <;> simp

end Sys2Proof
end

section
/-! PROOFS. The decoder requests one at a time (spec/41_decoder.md R105 to R111, R115, R116): the reply to each, in every
`DEC_STATE`, and from it what executing the request does. -/

namespace Sys2Proof.Machine

/-! ### The replies -/

/-- The response of a ParseError, and of a request that finds one (R106, R131). -/
theorem perrResponse_eq : packResponse 0 0 true false false = 0x0800000000 := by decide

/-- Outside OPEN every decoder data request answers PERR with no bytes and leaves ERR (R105, R106). -/
theorem replyTo_of_ne_opened {d : DecState} (hd : d ≠ .opened) {i : Instr} (hi : i.kind = .decoderData) :
    replyTo d (.request i) = (.err, 0x0800000000) := by
  rw [← perrResponse_eq]
  cases i with
  | dec1 | dec2 | dec3 => rfl
  | dec4 c0 c1 c2 c3 =>
    cases d with
    | opened => exact absurd rfl hd
    | closed | err => rfl
  | enc1 | enc2 | enc3 | dend => cases hi

/-- A partial group answers PERR with no bytes and leaves ERR, in every state (R108 to R110). -/
theorem replyTo_of_partial {m : Mnemonic} (hm : m ∈ [Mnemonic.dec1, .dec2, .dec3]) {i : Instr} (hi : i.mnemonic = m)
    (d : DecState) : replyTo d (.request i) = (.err, 0x0800000000) := by
  subst hi
  rw [← perrResponse_eq]
  cases i with
  | dec1 | dec2 | dec3 => rfl
  | enc1 | enc2 | enc3 | dec4 | dend => simp [Instr.mnemonic] at hm

/-- A group that fails its check raises ParseError (R107). -/
theorem replyTo_dec4_of_fail {c0 c1 c2 c3 : Byte} (h : check4 c0 c1 c2 c3 = .fail) (d : DecState) :
    replyTo d (.request (.dec4 c0 c1 c2 c3)) = (.err, 0x0800000000) := by
  rw [← perrResponse_eq]
  cases d <;> simp [replyTo, h]

/-- The response to an accepted group: its bytes, their number as LEN, and no status bit (R107). -/
def groupResponse (bs : List Byte) : Beat := packResponse (BitVec.ofNat 3 bs.length) (packBytes bs) false false false

theorem rspBytes_groupResponse {bs : List Byte} (h : bs.length ≤ 3) : rspBytes (groupResponse bs) = bs := by
  have hlen : (BitVec.ofNat 3 bs.length).toNat = bs.length := by simp; omega
  exact rspBytes_packBytes hlen.symm (hlen.trans_le h)

/-- In OPEN an accepted group answers its bytes, and a padded one closes the message (R107). -/
theorem replyTo_dec4_of_check {r : GroupCheck} {c0 c1 c2 c3 : Byte} (h : check4 c0 c1 c2 c3 = r) (hr : r ≠ .fail) :
    replyTo .opened (.request (.dec4 c0 c1 c2 c3)) =
      (if r = .full then .opened else .closed, groupResponse (refGroupBytes c0 c1 c2 c3)) := by
  subst h
  rw [replyTo_dec4_opened hr, join4_check4 hr]
  rfl

/-! ### Executing them -/

theorem exec_of_replyTo {i : Instr} {s : State} {d : DecState} {r : Beat}
    (h : replyTo s.decState (.request i) = (d, r)) :
    exec i s = .next { s with decState := d, rspQueue := s.rspQueue ++ [r] } := by
  rw [exec_eq_answered, h]
  rfl

/-- Settles O33: the reply to a partial group does not depend on its characters or on the state. -/
theorem partialGroupsRaiseParseError : Obligations.PartialGroupsRaiseParseError :=
  ⟨fun _ => ⟨decodeBeat_of_opc (m := .dec1), decodeBeat_of_opc (m := .dec2), decodeBeat_of_opc (m := .dec3)⟩,
    fun c0 c1 c2 s => ⟨exec_of_replyTo (replyTo_of_partial (m := .dec1) (by decide) rfl s.decState),
      exec_of_replyTo (replyTo_of_partial (m := .dec2) (by decide) rfl s.decState),
      exec_of_replyTo (replyTo_of_partial (m := .dec3) (by decide) rfl s.decState)⟩⟩

/-- Settles O34: the verdict is PERR of the response. -/
theorem dendResult : Obligations.DendResult := by
  have hfailed : packResponse 0 0 true true false = 0x1800000000 := by decide
  have hsuccess : packResponse 0 0 false true false = 0x1000000000 := by decide
  refine ⟨fun _ => decodeBeat_of_opc (m := .dend), fun s =>
    ⟨fun he => exec_of_replyTo ?_, fun hne => exec_of_replyTo ?_⟩⟩
  · rw [replyTo, (perrOf_eq_true s.decState).2 he, hfailed]
  · rw [replyTo, Bool.eq_false_iff.2 (mt (perrOf_eq_true s.decState).1 hne), hsuccess]

/-- Settles O35: in ERR the reply leaves ERR, which is the state already. -/
theorem failedMessageIsSuppressed : Obligations.FailedMessageIsSuppressed := by
  intro i s hi he
  have hreply : replyTo s.decState (.request i) = (s.decState, 0x0800000000) := by
    rw [he, replyTo_of_ne_opened (by decide) hi]
  exact exec_of_replyTo hreply

/-- Settles O40, by the status bits of a decoder data reply. -/
theorem perrShowsErr : Obligations.PerrShowsErr := by
  intro i s t hi h
  rw [exec_eq_answered] at h
  cases h
  obtain ⟨len, data, perr, hrsp, hperr⟩ := replyTo_of_decoderData hi s.decState
  exact ⟨_, rfl, by rw [hrsp, rspPerr_packResponse, hperr]; rfl⟩

/-! ### DEC4 -/

theorem exec_dec4_of_fail {c0 c1 c2 c3 : Byte} (h : check4 c0 c1 c2 c3 = .fail) (s : State) :
    exec (.dec4 c0 c1 c2 c3) s =
      .next { s with decState := .err, rspQueue := s.rspQueue ++ [0x0800000000] } :=
  exec_of_replyTo (replyTo_dec4_of_fail h s.decState)

section
variable {c0 c1 c2 c3 : Byte} {v0 v1 v2 v3 : Sixtet} {s : State}

theorem exec_dec4_of_check {r : GroupCheck} (h : check4 c0 c1 c2 c3 = r) (hr : r ≠ .fail) (ho : s.decState = .opened) :
    exec (.dec4 c0 c1 c2 c3) s = .next { s with
      decState := if r = .full then .opened else .closed
      rspQueue := s.rspQueue ++ [groupResponse (refGroupBytes c0 c1 c2 c3)] } :=
  exec_of_replyTo (by rw [ho, replyTo_dec4_of_check h hr])

/-- Four characters of the alphabet answer three bytes, and the message stays open. -/
theorem exec_dec4_full (ho : s.decState = .opened) (h0 : inv c0 = .idx v0) (h1 : inv c1 = .idx v1)
    (h2 : inv c2 = .idx v2) (h3 : inv c3 = .idx v3) :
    exec (.dec4 c0 c1 c2 c3) s = .next { s with rspQueue := s.rspQueue ++
      [groupResponse [refByte0 v0 v1, refByte1 v1 v2, refByte2 v2 v3]] } := by
  obtain ⟨-, -, -, hfull⟩ := groupCheckOutcomes c0 c1 c2 c3
  rw [exec_dec4_of_check (hfull.2 ⟨v0, v1, v2, v3, h0, h1, h2, h3⟩) (by decide) ho, refGroupBytes_full h0 h1 h2 h3,
    if_pos rfl, ← ho]

/-- Three characters of the alphabet and `=` answer two bytes and close the message. -/
theorem exec_dec4_pad1 (ho : s.decState = .opened) (h0 : inv c0 = .idx v0) (h1 : inv c1 = .idx v1)
    (h2 : inv c2 = .idx v2) :
    exec (.dec4 c0 c1 c2 0x3D) s = .next { s with decState := .closed, rspQueue := s.rspQueue ++
      [groupResponse [refByte0 v0 v1, refByte1 v1 v2]] } := by
  obtain ⟨-, -, hpad1, -⟩ := groupCheckOutcomes c0 c1 c2 0x3D
  rw [exec_dec4_of_check (hpad1.2 ⟨⟨v0, v1, v2, h0, h1, h2⟩, rfl⟩) (by decide) ho, refGroupBytes_pad1 h0 h1 h2,
    if_neg (by decide)]

/-- Two characters of the alphabet and `==` answer one byte and close the message. -/
theorem exec_dec4_pad2 (ho : s.decState = .opened) (h0 : inv c0 = .idx v0) (h1 : inv c1 = .idx v1) :
    exec (.dec4 c0 c1 0x3D 0x3D) s = .next { s with decState := .closed, rspQueue := s.rspQueue ++
      [groupResponse [refByte0 v0 v1]] } := by
  obtain ⟨-, hpad2, -, -⟩ := groupCheckOutcomes c0 c1 0x3D 0x3D
  rw [exec_dec4_of_check (hpad2.2 ⟨⟨v0, v1, h0, h1⟩, rfl, rfl⟩) (by decide) ho, refGroupBytes_pad2 h0 h1,
    if_neg (by decide)]

end

/-- Settles O32, state by state, and in OPEN by the outcome of the group check. -/
theorem dec4Result : Obligations.Dec4Result := by
  refine ⟨fun _ => decodeBeat_of_opc (m := .dec4), fun c0 c1 c2 c3 s =>
    ⟨failedMessageIsSuppressed _ s rfl, fun hc => ?_, fun _ hf => exec_dec4_of_fail hf s,
      fun v0 v1 v2 v3 => exec_dec4_full, ?_, ?_⟩⟩
  · exact exec_of_replyTo (replyTo_of_ne_opened (by simp [hc]) rfl)
  · rintro v0 v1 v2 ho h0 h1 h2 rfl
    exact exec_dec4_pad1 ho h0 h1 h2
  · rintro v0 v1 ho h0 h1 rfl rfl
    exact exec_dec4_pad2 ho h0 h1

/-- Settles O42: a code outside the ranges of R28 is INVALID, and the group check fails on it wherever it stands. -/
theorem noCharacterIsSkipped : Obligations.NoCharacterIsSkipped := by
  intro c hc
  have hinv : inv c = .invalid := by
    obtain hc | hc := hc
    · revert c
      decide
    · exact inv_of_gap (by omega)
  refine ⟨hinv, fun c0 c1 c2 c3 s hmem _ => exec_dec4_of_fail ?_ s⟩
  exact (groupCheckOutcomes c0 c1 c2 c3).1.2 (.inl ⟨c, hmem, hinv⟩)

/-! ### The transitions of `DEC_STATE` -/

/-- Settles O36: `DEC_STATE` after a step is that of the reply to the beat, by its OPC. -/
theorem decoderTransitions : Obligations.DecoderTransitions := by
  intro s t b rest hq h
  obtain ⟨b', rest', hq', -, rfl⟩ := step_next h
  obtain ⟨rfl, rfl⟩ := List.cons.inj (hq.symm.trans hq')
  rw [answered_decState]
  have hdec4 (h : opcOf b = 0x14) (d : DecState) :
      reply d b = replyTo d (.request (.dec4 (laneOf b 0) (laneOf b 1) (laneOf b 2) (laneOf b 3))) :=
    reply_of_decodeBeat (decodeBeat_of_opc (m := .dec4) h) d
  refine ⟨fun hopc => ?_, fun hopc => ?_, fun hopc => ?_, fun hopc hd => ?_, fun hopc hd => ?_⟩
  · by_contra hne
    exact hopc (opcOf_of_reply_ne hne)
  · rw [reply_of_decoderEnd ((beatKind_eq_decoderEnd_iff b).2 hopc)]
  · obtain ⟨m, hm, hopc⟩ : ∃ m ∈ [Mnemonic.dec1, .dec2, .dec3], opcOf b = m.opc := by simpa [Mnemonic.opc] using hopc
    rw [reply_of_decodeBeat (decodeBeat_of_opc hopc), replyTo_of_partial hm (Mnemonic.mnemonic_withLanes m _)]
  · rw [hdec4 hopc, replyTo_of_ne_opened hd rfl]
  · rw [hdec4 hopc, hd]
    refine ⟨fun hc => ?_, fun hc => ?_, fun hc => ?_, fun hc => ?_⟩
    · rw [replyTo_dec4_of_check hc (by decide)]
      rfl
    · rw [replyTo_dec4_of_check hc (by decide)]
      rfl
    · rw [replyTo_dec4_of_check hc (by decide)]
      rfl
    · rw [replyTo_dec4_of_fail hc]

/-! ### The don't-care bits -/

theorem toNat_setWidth_ushiftRight (v : Sixtet) (n : Nat) : ((v.setWidth 8) >>> n : Byte).toNat = v.toNat / 2 ^ n := by
  rw [BitVec.toNat_ushiftRight, BitVec.toNat_setWidth_of_le (by decide), Nat.shiftRight_eq_div_pow]

/-- The first byte as a number: the first sixtet and the top 2 bits of the second. -/
theorem refByte0_toNat (v0 v1 : Sixtet) : (refByte0 v0 v1).toNat = v0.toNat * 2 ^ 2 + v1.toNat / 2 ^ 4 := by
  have h1 := toNat_setWidth_ushiftRight v1 4
  rw [refByte0, toNat_setWidth_shiftLeft_or v0 _ (by decide) (by omega), h1]

/-- The second byte as a number: the low 4 bits of the second sixtet and the top 4 of the third. -/
theorem refByte1_toNat (v1 v2 : Sixtet) : (refByte1 v1 v2).toNat = v1.toNat % 2 ^ 4 * 2 ^ 4 + v2.toNat / 2 ^ 2 := by
  have h1 : (v1.setWidth 8 &&& 0xF : Byte) = (v1.setWidth 4).setWidth 8 := by
    revert v1
    decide
  have h2 := toNat_setWidth_ushiftRight v2 2
  rw [refByte1, h1, toNat_setWidth_shiftLeft_or _ _ (by decide) (by omega), h2, BitVec.toNat_setWidth]

/-- The byte of `xx==` keeps all but the low 4 bits of the second sixtet (R104). -/
theorem pad2Bytes_eq_iff (v0 v1 v0' v1' : Sixtet) :
    [refByte0 v0 v1] = [refByte0 v0' v1'] ↔ v0 = v0' ∧ v1.toNat / 16 = v1'.toNat / 16 := by
  simp only [List.cons.injEq, and_true, ← BitVec.toNat_inj, refByte0_toNat]
  omega

/-- The bytes of `xxx=` keep all but the low 2 bits of the third sixtet (R104). -/
theorem pad1Bytes_eq_iff (v0 v1 v2 v0' v1' v2' : Sixtet) :
    [refByte0 v0 v1, refByte1 v1 v2] = [refByte0 v0' v1', refByte1 v1' v2'] ↔
      v0 = v0' ∧ v1 = v1' ∧ v2.toNat / 4 = v2'.toNat / 4 := by
  simp only [List.cons.injEq, and_true, ← BitVec.toNat_inj, refByte0_toNat, refByte1_toNat]
  omega

theorem groupResponse_inj {bs bs' : List Byte} (h : bs.length ≤ 3) (h' : bs'.length ≤ 3) :
    groupResponse bs = groupResponse bs' ↔ bs = bs' :=
  ⟨fun heq => by rw [← rspBytes_groupResponse h, heq, rspBytes_groupResponse h'], congrArg _⟩

/-- In OPEN the characters of a tail are accepted, answer its bytes and close the message. -/
theorem exec_regroup_tail {i : Instr} (hi : i.kind = .encoder) (htail : i.mnemonic ≠ .enc3) {s : State}
    (ho : s.decState = .opened) :
    exec i.regroup s = .next { s with decState := .closed, rspQueue := s.rspQueue ++ [groupResponse i.operands] } := by
  have hreply := reply_regroup_opened hi
  rw [reply_encode, if_neg htail, ← ho] at hreply
  exact exec_of_replyTo hreply

/-- Settles O41: what a padded group answers is its bytes, and a tail of the encoder has those bytes. -/
theorem dontCareBits : Obligations.DontCareBits := by
  refine ⟨?_, ?_, fun b0 b1 => ?_, fun b0 => ?_⟩
  · intro c0 c1 c2 c0' c1' c2' v0 v1 v2 v0' v1' v2' s ho h0 h1 h2 h0' h1' h2'
    refine ⟨⟨_, exec_dec4_pad1 ho h0 h1 h2, rspPerr_packResponse .., rspLen_packResponse ..⟩, ?_⟩
    rw [exec_dec4_pad1 ho h0 h1 h2, exec_dec4_pad1 ho h0' h1' h2', ← pad1Bytes_eq_iff,
      ← groupResponse_inj (by simp) (by simp)]
    simp
  · intro c0 c1 c0' c1' v0 v1 v0' v1' s ho h0 h1 h0' h1'
    refine ⟨⟨_, exec_dec4_pad2 ho h0 h1, rspPerr_packResponse .., rspLen_packResponse ..⟩, ?_⟩
    rw [exec_dec4_pad2 ho h0 h1, exec_dec4_pad2 ho h0' h1', ← pad2Bytes_eq_iff, ← groupResponse_inj (by simp) (by simp)]
    simp
  · exact ⟨_, _, _, _, _, _, inv_encChar 2 (groupWord b0 b1 0) 0, inv_encChar 2 (groupWord b0 b1 0) 1,
      inv_encChar 2 (groupWord b0 b1 0) 2, fun s ho => exec_regroup_tail (i := .enc2 b0 b1) rfl nofun ho⟩
  · exact ⟨_, _, _, _, inv_encChar 1 (groupWord b0 0 0) 0, inv_encChar 1 (groupWord b0 0 0) 1,
      fun s ho => exec_regroup_tail (i := .enc1 b0) rfl nofun ho⟩

end Sys2Proof.Machine
end

section
/-! PROOFS. DECSTR of a whole string (spec/41_decoder.md R100, R113): group by group, the message stays out of ERR exactly
when the string is valid, and its responses then carry the bytes of the groups. -/

namespace Sys2Proof

theorem forall_getElem?_append_ne (pre rest : List Byte) (x : Byte) (n : Nat) :
    (∀ i < pre.length + n, (pre ++ rest)[i]? ≠ some x) ↔ (∀ c ∈ pre, c ≠ x) ∧ ∀ i < n, rest[i]? ≠ some x := by
  induction pre with
  | nil => simp
  | cons c pre ih =>
    rw [List.length_cons, Nat.succ_add, Nat.forall_lt_succ_left, List.forall_mem_cons, and_assoc, ← ih]
    simp

/-- Before the last group, whole groups are valid exactly when they hold no INVALID and no `=` (R100). -/
theorem valid_append_iff {pre rest : List Byte} (hpre : pre.length % 4 = 0) (hne : rest ≠ []) :
    Valid (pre ++ rest) ↔ (∀ c ∈ pre, inv c ≠ .invalid ∧ c ≠ 0x3D) ∧ Valid rest := by
  have hpos : 0 < rest.length := List.length_pos_iff.2 hne
  have hmod : (pre ++ rest).length % 4 = rest.length % 4 := by
    rw [List.length_append]
    omega
  by_cases h4 : rest.length % 4 = 0
  · have hbefore : (pre ++ rest).length - 2 = pre.length + (rest.length - 2) := by
      rw [List.length_append]
      omega
    have hlast : (pre ++ rest).length - 1 = pre.length + (rest.length - 1) := by
      rw [List.length_append]
      omega
    have h2 : 2 ≤ rest.length := by omega
    have h2' : 2 ≤ (pre ++ rest).length := h2.trans (by simp)
    simp only [Valid, hmod, hbefore, hlast, h4, h2, h2', forall_getElem?_append_ne, List.forall_mem_append, forall_and,
      List.getElem?_append_right (Nat.le_add_right _ _), Nat.add_sub_cancel_left, true_and, true_imp_iff]
    tauto
  · exact iff_of_false (fun ⟨h, _⟩ => h4 (hmod ▸ h)) fun ⟨_, h, _⟩ => h4 h

/-- A group before the last one must hold four characters of the alphabet, and what follows it must be valid. -/
theorem valid_cons_group_iff (c0 c1 c2 c3 : Byte) {rest : List Byte} (hne : rest ≠ []) :
    Valid (c0 :: c1 :: c2 :: c3 :: rest) ↔ check4 c0 c1 c2 c3 = .full ∧ Valid rest := by
  obtain ⟨-, -, -, hfull⟩ := groupCheckOutcomes c0 c1 c2 c3
  have happend := valid_append_iff (pre := [c0, c1, c2, c3]) (by simp) hne
  simpa [hfull, exists_inv_idx_iff, and_assoc] using happend

/-- A string of one group is valid exactly when the group check accepts it. -/
theorem valid_group_iff (c0 c1 c2 c3 : Byte) : Valid [c0, c1, c2, c3] ↔ check4 c0 c1 c2 c3 ≠ .fail := by
  obtain ⟨hfail, -⟩ := groupCheckOutcomes c0 c1 c2 c3
  have hvalid : Valid [c0, c1, c2, c3] ↔ 4 % 4 = 0 ∧ (∀ c ∈ [c0, c1, c2, c3], inv c ≠ .invalid) ∧
      (∀ i < [c0, c1].length + 0, ([c0, c1] ++ [c2, c3])[i]? ≠ some 0x3D) ∧
      (2 ≤ 4 → some c2 = some 0x3D → some c3 = some 0x3D) := Iff.rfl
  rw [hvalid, forall_getElem?_append_ne, ne_eq, hfail]
  simp [and_assoc]

end Sys2Proof

namespace Sys2Proof.Machine

/-- The data requests of DECSTR, without its DEND (R71). -/
def decData : List Byte → List Instr
  | c0 :: c1 :: c2 :: c3 :: rest => .dec4 c0 c1 c2 c3 :: decData rest
  | [c0, c1, c2] => [.dec3 c0 c1 c2]
  | [c0, c1] => [.dec2 c0 c1]
  | [c0] => [.dec1 c0]
  | [] => []

theorem decStr_eq : ∀ str : List Byte, decStr str = decData str ++ [Instr.dend]
  | _ :: _ :: _ :: _ :: rest => by rw [decStr, decStr_eq rest]; rfl
  | [_, _, _] => rfl
  | [_, _] => rfl
  | [_] => rfl
  | [] => rfl

theorem kind_of_mem_decData : ∀ str : List Byte, ∀ i ∈ decData str, i.kind = .decoderData
  | _ :: _ :: _ :: _ :: rest => List.forall_mem_cons.2 ⟨rfl, kind_of_mem_decData rest⟩
  | [_, _, _] => List.forall_mem_singleton.2 rfl
  | [_, _] => List.forall_mem_singleton.2 rfl
  | [_] => List.forall_mem_singleton.2 rfl
  | [] => List.forall_mem_nil _

theorem decData_ne_nil : ∀ {str : List Byte}, str ≠ [] → decData str ≠ []
  | _ :: _ :: _ :: _ :: _, _ => List.cons_ne_nil _ _
  | [_, _, _], _ => List.cons_ne_nil _ _
  | [_, _], _ => List.cons_ne_nil _ _
  | [_], _ => List.cons_ne_nil _ _
  | [], h => absurd rfl h

/-- Once a message is not OPEN, every further data request leaves it in ERR (R105). -/
theorem decAfter_of_ne_opened {is : List Instr} (hne : is ≠ []) (his : ∀ i ∈ is, i.kind = .decoderData) {d : DecState}
    (hd : d ≠ .opened) : decAfter d (beatsOf is) = .err := by
  induction is generalizing d with
  | nil => exact absurd rfl hne
  | cons i is ih =>
    obtain ⟨hi, his⟩ := List.forall_mem_cons.1 his
    rw [beatsOf_cons, decAfter_cons, reply_encode, replyTo_of_ne_opened hd hi]
    by_cases hnil : is = []
    · rw [hnil]
      rfl
    · exact ih hnil his (by decide)

/-- A partial group in OPEN leaves ERR. -/
theorem decAfter_partial {m : Mnemonic} (hm : m ∈ [Mnemonic.dec1, .dec2, .dec3]) {i : Instr} (hi : i.mnemonic = m) :
    decAfter .opened (beatsOf [i]) = .err := by
  rw [beatsOf_cons, decAfter_cons, reply_encode, replyTo_of_partial hm hi]
  rfl

/-- After a group in OPEN the message has failed exactly when the check fails, and is OPEN exactly when the group is
full. -/
theorem replyTo_dec4_decState (c0 c1 c2 c3 : Byte) :
    ((replyTo .opened (.request (.dec4 c0 c1 c2 c3))).1 ≠ .err ↔ check4 c0 c1 c2 c3 ≠ .fail) ∧
    ((replyTo .opened (.request (.dec4 c0 c1 c2 c3))).1 = .opened ↔ check4 c0 c1 c2 c3 = .full) := by
  cases hc : check4 c0 c1 c2 c3 with
  | fail => simp [replyTo_dec4_of_fail hc]
  | full | pad1 | pad2 => simp [replyTo_dec4_of_check hc]

theorem rspBytes_replyTo_dec4 {c0 c1 c2 c3 : Byte} (h : check4 c0 c1 c2 c3 ≠ .fail) :
    rspBytes (replyTo .opened (.request (.dec4 c0 c1 c2 c3))).2 = refGroupBytes c0 c1 c2 c3 := by
  rw [replyTo_dec4_of_check rfl h, rspBytes_groupResponse (refGroupBytes_length_le ..)]

/-- The data requests of DECSTR keep out of ERR exactly on the valid strings. -/
theorem decAfter_decData_ne_err_iff : ∀ str : List Byte, decAfter .opened (beatsOf (decData str)) ≠ .err ↔ Valid str
  | c0 :: c1 :: c2 :: c3 :: rest => by
    obtain ⟨herr, hopen⟩ := replyTo_dec4_decState c0 c1 c2 c3
    rw [decData, beatsOf_cons, decAfter_cons, reply_encode]
    by_cases hrest : rest = []
    · subst hrest
      rw [valid_group_iff, ← herr]
      rfl
    · rw [valid_cons_group_iff _ _ _ _ hrest, ← decAfter_decData_ne_err_iff rest]
      by_cases hfull : check4 c0 c1 c2 c3 = .full
      · simp [hopen.2 hfull, hfull]
      · have herr := decAfter_of_ne_opened (decData_ne_nil hrest) (kind_of_mem_decData rest) (mt hopen.1 hfull)
        simp [herr, hfull]
  | [_, _, _] => iff_of_false (not_not.2 (decAfter_partial (m := .dec3) (by decide) rfl)) (by simp [Valid])
  | [_, _] => iff_of_false (not_not.2 (decAfter_partial (m := .dec2) (by decide) rfl)) (by simp [Valid])
  | [_] => iff_of_false (not_not.2 (decAfter_partial (m := .dec1) (by decide) rfl)) (by simp [Valid])
  | [] => by decide

/-- The responses to the data requests of a valid string carry the bytes of its groups. -/
theorem elementsOf_decData : ∀ {str : List Byte}, Valid str →
    elementsOf (replies .opened (beatsOf (decData str))) = refStringBytes str
  | c0 :: c1 :: c2 :: c3 :: rest, hv => by
    rw [decData, beatsOf_cons, replies, elementsOf_cons, reply_encode, refStringBytes]
    by_cases hrest : rest = []
    · subst hrest
      rw [rspBytes_replyTo_dec4 ((valid_group_iff ..).1 hv)]
      rfl
    · obtain ⟨hfull, hv⟩ := (valid_cons_group_iff _ _ _ _ hrest).1 hv
      obtain ⟨-, hopen⟩ := replyTo_dec4_decState c0 c1 c2 c3
      rw [rspBytes_replyTo_dec4 (by simp [hfull]), hopen.2 hfull, elementsOf_decData hv]
  | [_, _, _], hv => absurd hv (by simp [Valid])
  | [_, _], hv => absurd hv (by simp [Valid])
  | [_], hv => absurd hv (by simp [Valid])
  | [], _ => rfl

/-- Settles O44: DECSTR is a decode message, whose verdict and bytes are those of its data requests. -/
theorem decstrDecodesExactlyTheValidStrings : Obligations.DecstrDecodesExactlyTheValidStrings := by
  intro str s hs ho
  have hvalid := decAfter_decData_ne_err_iff str
  rw [decStr_eq]
  refine ⟨_, serve_message hs ho _, ?_⟩
  rw [messageResults_message (kind_of_mem_decData str)]
  simp only [perrOf_eq_true]
  by_cases hv : Valid str
  · rw [if_pos hv, if_neg (hvalid.2 hv), elementsOf_decData hv]
    rfl
  · rw [if_neg hv, if_pos (not_not.1 (mt hvalid.1 hv))]

end Sys2Proof.Machine
end

section
/-! PROOFS. Errors and illegal requests (spec/60_exceptions.md R131, R133, R136, R137): what raises ParseError, what leaves ERR
again, and that PERR shows ERR through a whole message. All of it is read off the reply to one beat. -/

namespace Sys2Proof.Machine

/-! ### Illegal requests -/

/-- The OPCs that have a mnemonic, as numbers, are the eight of R62. -/
theorem assignedOpcs_perm :
    ((List.range 256).filter fun n => !decide (Mnemonic.ofOpc (BitVec.ofNat 8 n) = none)).Perm
      (Mnemonic.all.map fun m => m.opc.toNat) := by
  rw [List.perm_ext_iff_of_nodup (List.nodup_range.filter _) (by decide)]
  intro n
  have hall (m : Mnemonic) : m ∈ Mnemonic.all := by cases m <;> decide
  simp only [List.mem_filter, List.mem_range, Bool.not_eq_true', decide_eq_false_iff_not, Mnemonic.ofOpc_eq_none_iff,
    not_forall, not_not, List.mem_map, hall, true_and]
  constructor
  · rintro ⟨hn, m, hm⟩
    exact ⟨m, (ofNat_eq_byte_iff hn _).1 hm⟩
  · rintro ⟨m, rfl⟩
    exact ⟨m.opc.isLt, m, BitVec.ofNat_toNat ..⟩

/-- 248 OPCs are illegal: of 256 values, eight are assigned (R133). -/
theorem illegalOpcs_length :
    ((List.range 256).filter fun n => Mnemonic.ofOpc (BitVec.ofNat 8 n) = none).length = 248 := by
  have hsplit := List.length_eq_length_filter_add (l := List.range 256)
    fun n => decide (Mnemonic.ofOpc (BitVec.ofNat 8 n) = none)
  rw [assignedOpcs_perm.length_eq, List.length_range] at hsplit
  exact Nat.add_right_cancel hsplit.symm

/-- Settles O10: an unassigned OPC has no kind, so the step queues the one reply to illegal beats. -/
theorem illegalRequestAnswersIll : Obligations.IllegalRequestAnswersIll := by
  refine ⟨fun s b rest hq hroom hopc => ?_, illegalOpcs_length⟩
  rw [step_of_cons hq hroom, reply_of_illegal ((beatKind_eq_none_iff_opcOf b).2 hopc)]
  rfl

/-! ### Raising ParseError -/

/-- The conditions of R131 on `DEC_STATE` and the request, the first three rows being those of a failed group check. -/
def RaisesParseError (d : DecState) (b : Beat) : Prop :=
  (opcOf b = 0x14 ∧ d = .opened ∧ check4 (laneOf b 0) (laneOf b 1) (laneOf b 2) (laneOf b 3) = .fail) ∨
  (opcOf b = 0x14 ∧ d = .closed) ∨
  opcOf b ∈ [0x11, 0x12, 0x13]

theorem reply_of_dec4 {b : Beat} (h : opcOf b = 0x14) (d : DecState) :
    reply d b = replyTo d (.request (.dec4 (laneOf b 0) (laneOf b 1) (laneOf b 2) (laneOf b 3))) :=
  reply_of_decodeBeat (decodeBeat_of_opc (m := .dec4) h) d

/-- A beat of a partial group answers PERR with no bytes and leaves ERR. -/
theorem reply_of_partial {b : Beat} (h : opcOf b ∈ [0x11, 0x12, 0x13]) (d : DecState) :
    reply d b = (.err, 0x0800000000) := by
  obtain ⟨m, hm, hopc⟩ : ∃ m ∈ [Mnemonic.dec1, .dec2, .dec3], opcOf b = m.opc := by simpa [Mnemonic.opc] using h
  rw [reply_of_decodeBeat (decodeBeat_of_opc hopc), replyTo_of_partial hm (Mnemonic.mnemonic_withLanes m _)]

theorem reply_of_raisesParseError {d : DecState} {b : Beat} (h : RaisesParseError d b) :
    reply d b = (.err, 0x0800000000) := by
  obtain ⟨hopc, -, hfail⟩ | ⟨hopc, rfl⟩ | hopc := h
  · rw [reply_of_dec4 hopc, replyTo_dec4_of_fail hfail]
  · rw [reply_of_dec4 hopc, replyTo_of_ne_opened (by decide) rfl]
  · exact reply_of_partial hopc d

/-- Nothing but the conditions of R131 leads into ERR. -/
theorem raisesParseError_of_reply {d : DecState} {b : Beat} (hd : d ≠ .err) (h : (reply d b).1 = .err) :
    RaisesParseError d b := by
  have hmem : opcOf b ∈ [0x11, 0x12, 0x13] ∨ opcOf b = 0x14 ∨ opcOf b = 0x18 := by
    simpa [or_assoc] using opcOf_of_reply_ne (h ▸ hd.symm)
  obtain hpartial | hdec4 | hdend := hmem
  · exact .inr (.inr hpartial)
  · cases d with
    | err => exact absurd rfl hd
    | closed => exact .inr (.inl ⟨hdec4, rfl⟩)
    | opened =>
      rw [reply_of_dec4 hdec4] at h
      exact .inl ⟨hdec4, rfl, not_not.1 fun hok => (replyTo_dec4_decState _ _ _ _).1.2 hok h⟩
  · rw [reply_of_decoderEnd ((beatKind_eq_decoderEnd_iff b).2 hdend)] at h
    cases h

theorem reply_eq_err_iff {d : DecState} {b : Beat} (hd : d ≠ .err) : (reply d b).1 = .err ↔ RaisesParseError d b :=
  ⟨raisesParseError_of_reply hd, fun h => by rw [reply_of_raisesParseError h]⟩

/-- The rows of R131: the first three spell out the failed group check of R102. -/
theorem raisesParseError_iff (d : DecState) (b : Beat) :
    RaisesParseError d b ↔
      (opcOf b = 0x14 ∧ d = .opened ∧ (∃ k < 4, inv (laneOf b k) = .invalid)) ∨
      (opcOf b = 0x14 ∧ d = .opened ∧ (laneOf b 0 = 0x3D ∨ laneOf b 1 = 0x3D)) ∨
      (opcOf b = 0x14 ∧ d = .opened ∧ laneOf b 2 = 0x3D ∧ laneOf b 3 ≠ 0x3D) ∨
      (opcOf b = 0x14 ∧ d = .closed) ∨
      opcOf b ∈ [0x11, 0x12, 0x13] := by
  have hlanes : (∃ c ∈ [laneOf b 0, laneOf b 1, laneOf b 2, laneOf b 3], inv c = .invalid) ↔
      ∃ k < 4, inv (laneOf b k) = .invalid := by
    rw [show [laneOf b 0, laneOf b 1, laneOf b 2, laneOf b 3] = (List.range 4).map (laneOf b) from rfl]
    simp
  rw [RaisesParseError, (groupCheckOutcomes _ _ _ _).1, hlanes]
  simp only [and_or_left, or_assoc]

/-- Settles O37: the conditions are those of the beat's reply, which then is the ParseError response. -/
theorem parseErrorRaisedExactly : Obligations.ParseErrorRaisedExactly := by
  intro s t b rest hq h hd
  obtain ⟨b', rest', hq', -, rfl⟩ := step_next h
  obtain ⟨rfl, rfl⟩ := List.cons.inj (hq.symm.trans hq')
  rw [← raisesParseError_iff, answered_decState, answered_rspQueue, reply_eq_err_iff hd]
  exact ⟨Iff.rfl, fun hraise => by rw [reply_of_raisesParseError hraise]⟩

/-! ### Leaving ERR -/

/-- A DEND that finds ERR reports it and leaves OPEN (R111). -/
theorem reply_err_of_dend {b : Beat} (h : opcOf b = 0x18) : reply .err b = (.opened, 0x1800000000) := by
  rw [reply_of_decoderEnd ((beatKind_eq_decoderEnd_iff b).2 h)]
  decide

theorem reply_of_decoderData_of_ne_opened {b : Beat} (hb : beatKind b = some .decoderData) {d : DecState}
    (hd : d ≠ .opened) : reply d b = (.err, 0x0800000000) := by
  obtain ⟨i, hi, hk⟩ := (beatKind_eq_some_iff b _).1 hb
  rw [reply_of_decodeBeat hi, replyTo_of_ne_opened hd hk]

/-- Only a DEND leaves ERR (R106, R137). -/
theorem opcOf_of_reply_err_ne {b : Beat} (h : (reply .err b).1 ≠ .err) : opcOf b = 0x18 := by
  rw [← beatKind_eq_decoderEnd_iff]
  rcases hb : beatKind b with _ | _ | _ | _
  · rw [reply_of_illegal hb] at h
    exact absurd rfl h
  · obtain ⟨r, hr⟩ := reply_of_not_decoder (.inl hb)
    rw [hr] at h
    exact absurd rfl h
  · rw [reply_of_decoderData_of_ne_opened hb (by decide)] at h
    exact absurd rfl h
  · rfl

/-- Settles O38, move by move: issuing and taking do not write `DEC_STATE`, and an execution leaves ERR only for a DEND. -/
theorem onlyDendOrResetClearsErr : Obligations.OnlyDendOrResetClearsErr := by
  intro m h h' he hm
  obtain ⟨b, rfl, -, -, rfl⟩ | ⟨b, rest, rfl, hq, -, rfl⟩ | ⟨r, rs, rfl, -, rfl⟩ | ⟨rfl, rfl⟩ := move_cases hm
  · exact ⟨fun hne => absurd he hne, nofun, nofun⟩
  · simp only [answered_decState, answered_rspQueue, he]
    refine ⟨fun hne => ?_, nofun, fun b' rest' _ hq' hopc => ?_⟩
    · have hopc := opcOf_of_reply_err_ne hne
      rw [reply_err_of_dend hopc]
      exact ⟨rfl, .inr ⟨trivial, b, rest, hq, hopc, rfl⟩⟩
    · obtain ⟨rfl, rfl⟩ := List.cons.inj (hq.symm.trans hq')
      rw [reply_err_of_dend hopc]
  · exact ⟨fun hne => absurd he hne, nofun, nofun⟩
  · exact ⟨fun _ => ⟨rfl, .inl rfl⟩, fun _ => rfl, nofun⟩

/-! ### PERR through a message -/

/-- A data request's response has PERR exactly when it leaves ERR (R116). -/
theorem rspPerr_reply_of_decoderData {b : Beat} (hb : beatKind b = some .decoderData) (d : DecState) :
    rspPerr (reply d b).2 = true ↔ (reply d b).1 = .err := by
  obtain ⟨-, -, hperr⟩ := rspStatus_reply d b
  simpa [hb] using hperr

/-- In a failed message every response to a data request has PERR. -/
theorem rspPerr_of_mem_replies_err {bs : List Beat} (hbs : ∀ b ∈ bs, beatKind b = some .decoderData) :
    ∀ r ∈ replies .err bs, rspPerr r = true := by
  induction bs with
  | nil => exact nofun
  | cons b bs ih =>
    obtain ⟨hb, hbs⟩ := List.forall_mem_cons.1 hbs
    rw [replies, reply_of_decoderData_of_ne_opened hb (by decide), List.forall_mem_cons]
    exact ⟨by decide, ih hbs⟩

/-- Among the responses to data requests, PERR stays once it has come. -/
theorem pairwise_rspPerr_replies {bs : List Beat} (hbs : ∀ b ∈ bs, beatKind b = some .decoderData) (d : DecState) :
    (replies d bs).Pairwise fun r r' => rspPerr r = true → rspPerr r' = true := by
  induction bs generalizing d with
  | nil => exact .nil
  | cons b bs ih =>
    obtain ⟨hb, hbs⟩ := List.forall_mem_cons.1 hbs
    refine .cons (fun r' hr' hperr => ?_) (ih hbs _)
    rw [(rspPerr_reply_of_decoderData hb d).1 hperr] at hr'
    exact rspPerr_of_mem_replies_err hbs r' hr'

/-- A message is in ERR after its data requests when it was before, or one of the responses has PERR. -/
theorem decAfter_eq_err_iff {bs : List Beat} (hbs : ∀ b ∈ bs, beatKind b = some .decoderData) (d : DecState) :
    decAfter d bs = .err ↔ d = .err ∨ ∃ r ∈ replies d bs, rspPerr r = true := by
  induction bs generalizing d with
  | nil => simp [decAfter, replies]
  | cons b bs ih =>
    obtain ⟨hb, hbs⟩ := List.forall_mem_cons.1 hbs
    have hstay : d = .err → (reply d b).1 = .err := by
      rintro rfl
      rw [reply_of_decoderData_of_ne_opened hb (by decide)]
    rw [decAfter_cons, ih hbs, replies, List.exists_mem_cons_iff, rspPerr_reply_of_decoderData hb, ← or_assoc,
      or_iff_right_of_imp hstay]

/-- Settles O48: the responses are the replies to the stream, in which PERR stays and shows ERR. -/
theorem parseErrorIsPrecise : Obligations.ParseErrorIsPrecise := by
  rintro bs s ⟨hq, hr⟩ ho hbs
  refine ⟨_, _, serve_of_quiet hq hr bs, ⟨hq, hr⟩, replies_length _ _, fun j k r r' hjk hj hk hperr => ?_, ?_⟩
  · obtain rfl | hlt := hjk.eq_or_lt
    · obtain rfl := Option.some.inj (hj.symm.trans hk)
      exact hperr
    · obtain ⟨hlenj, rfl⟩ := List.getElem?_eq_some_iff.1 hj
      obtain ⟨hlenk, rfl⟩ := List.getElem?_eq_some_iff.1 hk
      exact List.pairwise_iff_getElem.1 (pairwise_rspPerr_replies hbs _) j k hlenj hlenk hlt hperr
  · rw [decAfter_eq_err_iff hbs, ho]
    simp

end Sys2Proof.Machine
end

section
/-! PROOFS. Flow control and reset (spec/70_reset_and_hazards.md R150 to R152, R157): the queues alone decide whether a request
is accepted, executed or answered, and reset empties them. -/

namespace Sys2Proof.Machine

/-! ### Accepting, executing, taking -/

theorem issue_of_room {s : State} (b : Beat) (hreq : s.reqQueue.length < Config.reqDepth)
    (hrsp : s.rspQueue.length < Config.rspDepth) : issue b s = some { s with reqQueue := s.reqQueue ++ [b] } :=
  (issue_eq_some_iff b s _).2 ⟨hreq, hrsp, rfl⟩

theorem issue_of_full {s : State} (b : Beat)
    (h : Config.reqDepth ≤ s.reqQueue.length ∨ Config.rspDepth ≤ s.rspQueue.length) : issue b s = none :=
  Option.eq_none_iff_forall_ne_some.2 fun s' hs => by
    obtain ⟨hreq, hrsp, -⟩ := (issue_eq_some_iff b s s').1 hs
    exact h.elim hreq.not_ge hrsp.not_ge

theorem take_of_cons {s : State} {r : Beat} {rs : List Beat} (h : s.rspQueue = r :: rs) :
    take s = some (r, { s with rspQueue := rs }) :=
  (take_eq_some_iff s r _).2 ⟨rs, h, rfl⟩

theorem exists_step_of_ready {s : State} (h : Ready s) : ∃ t, step s = .next t := by
  obtain ⟨hq, hroom⟩ := h
  obtain ⟨b, rest, hcons⟩ := List.exists_cons_of_ne_nil hq
  exact ⟨_, step_of_cons hcons hroom⟩

/-- A step answers a next state or waits for the host: with no request, or with no room for a response (R157). -/
theorem step_ne_refused (s : State) (r : Refusal) : step s ≠ .refused r := by
  by_cases hq : s.reqQueue = []
  · simp [step_of_nil hq]
  · by_cases hroom : s.rspQueue.length < Config.rspDepth
    · obtain ⟨t, ht⟩ := exists_step_of_ready ⟨hq, hroom⟩
      simp [ht]
    · simp [step_of_full hq (Nat.not_lt.1 hroom)]

/-- Settles O12: a ready block answers its oldest request, and a block that is not ready waits. -/
theorem readyBlockNeverHangs : Obligations.ReadyBlockNeverHangs :=
  fun s => ⟨exists_step_of_ready, step_ne_refused s⟩

/-- A full response queue has an oldest response, and has room once that is taken (R7, R157). -/
theorem exists_take_of_full {s : State} (h : s.rspQueue.length = Config.rspDepth) :
    ∃ (r : Beat) (rs : List Beat), take s = some (r, { s with rspQueue := rs }) ∧ rs.length < Config.rspDepth := by
  obtain ⟨r, rs, hcons⟩ := List.exists_cons_of_length_pos (h.symm ▸ Config.rspDepth_pos)
  refine ⟨r, rs, take_of_cons hcons, ?_⟩
  rw [← h, hcons]
  exact Nat.lt_succ_self _

/-- Settles O11: the clauses about one move are its equations, and the last is about the state that taking a response leaves. -/
theorem flowControl : Obligations.FlowControl := by
  refine fun s => ⟨fun b => issue_of_room b, fun b h => issue_of_full b (.inl h),
    fun b h => issue_of_full b (.inr h), fun r rs => take_of_cons, step_of_nil, step_of_full, fun hfull => ?_⟩
  obtain ⟨r, rs, htake, hroom⟩ := exists_take_of_full hfull
  exact ⟨r, _, htake, fun hq => exists_step_of_ready ⟨hq, hroom⟩, fun hreq b => ⟨_, issue_of_room b hreq hroom⟩⟩

/-! ### Reset -/

/-- Settles O16: both queues are empty. -/
theorem resetMeetsInv : Obligations.ResetMeetsInv := inv_reset

/-- Settles O19: whatever the session, the state after reset is `State.reset`, in which nothing is queued. -/
theorem resetDiscardsWorkInFlight : Obligations.ResetDiscardsWorkInFlight :=
  fun _ => ⟨rfl, rfl, step_of_nil rfl, rfl⟩

/-- A DEND that ends a message not in ERR reports success and leaves OPEN (R111). -/
theorem reply_of_dend_of_ne_err {b : Beat} (h : opcOf b = 0x18) {d : DecState} (hd : d ≠ .err) :
    reply d b = (.opened, 0x1000000000) := by
  have hperr : perrOf d = false := Bool.eq_false_iff.2 (mt (perrOf_eq_true d).1 hd)
  have hrsp : packResponse 0 0 false true false = 0x1000000000 := by decide
  rw [reply_of_decoderEnd ((beatKind_eq_decoderEnd_iff b).2 h), hperr, hrsp]

/-- Settles O20: the request is the only one waiting, and its reply the only response. -/
theorem firstRequestAfterResetRuns : Obligations.FirstRequestAfterResetRuns := by
  intro b
  have hissue : issue b State.reset = some { State.reset with reqQueue := [b] } :=
    issue_of_room b Config.reqDepth_pos Config.rspDepth_pos
  refine ⟨_, _, _, hissue, step_of_cons rfl Config.rspDepth_pos, take_of_cons rfl, fun hb => ?_⟩
  rw [answered_decState, reset_decState, reply_of_dend_of_ne_err hb (by decide)]
  exact ⟨rfl, rfl⟩

end Sys2Proof.Machine
end

section
/-! PROOFS. Runs that go on for ever (spec/70_reset_and_hazards.md R156, R157): a full response queue that nobody takes from
stops everything; a fair block executes what waits; and a fair block with a host that takes responses answers every request,
because the number of responses taken grows until it reaches the number of requests accepted. -/

namespace Sys2Proof.Machine

/-! ### One move -/

/-- An execution answers the oldest request. -/
theorem move_execute {h h' : Session} (hm : h.move .execute = some h') :
    ∃ (b : Beat) (rest : List Beat), h.state.reqQueue = b :: rest ∧
      h'.state = answered { h.state with reqQueue := rest } (reply h.state.decState b) := by
  obtain ⟨b, h1, -⟩ | ⟨b, rest, -, hq, -, rfl⟩ | ⟨r, rs, h1, -⟩ | ⟨h1, -⟩ := move_cases hm
  · cases h1
  · exact ⟨b, rest, hq, rfl⟩
  · cases h1
  · cases h1

/-- A take adds one response to those taken. -/
theorem length_taken_of_take {h h' : Session} (hm : h.move .take = some h') :
    h'.taken.length = h.taken.length + 1 := by
  obtain ⟨b, h1, -⟩ | ⟨b, rest, h1, -⟩ | ⟨r, rs, -, -, rfl⟩ | ⟨h1, -⟩ := move_cases hm
  · cases h1
  · cases h1
  · exact List.length_append
  · cases h1

/-! ### A stall -/

/-- With a full response queue nothing can happen but a take and reset (R154, R157). -/
theorem turn_of_full {a : Option Move} {h h' : Session} (hfull : Config.rspDepth ≤ h.state.rspQueue.length)
    (htake : a ≠ some .take) (hreset : a ≠ some .assertReset) (ht : h.turn a = some h') : a = none := by
  cases a with
  | none => rfl
  | some m =>
    obtain ⟨b, -, -, hroom, -⟩ | ⟨b, rest, -, -, hroom, -⟩ | ⟨r, rs, rfl, -⟩ | ⟨rfl, -⟩ := move_cases ht
    · exact absurd hroom (Nat.not_lt.2 hfull)
    · exact absurd hroom (Nat.not_lt.2 hfull)
    · exact absurd rfl htake
    · exact absurd rfl hreset

/-- Settles O53: at every later point the session is the one of the full response queue, so again nothing can happen. -/
theorem untakenResponsesStallForEver : Obligations.UntakenResponsesStallForEver := by
  intro act σ n hrun hfull hhost
  have hidle : ∀ k, n ≤ k → σ k = σ n → act k = none := fun k hk hσ => by
    obtain ⟨htake, hreset⟩ := hhost k hk
    exact turn_of_full (hσ ▸ hfull) htake hreset (hrun k)
  have hsame : ∀ k, n ≤ k → σ k = σ n := by
    refine run_invariant (P := (· = σ n)) hrun rfl fun k h' hk hσ ht => ?_
    rw [hidle k hk hσ, turn_none] at ht
    rw [← Option.some.inj ht, hσ]
  exact fun k hk => ⟨hidle k hk (hsame k hk), hsame k hk⟩

/-! ### Execution -/

/-- What holds at a point of a run and is kept by every turn of another kind still holds when a turn of the awaited kind comes. -/
theorem exists_first_turn {act : Nat → Option Move} {σ : Nat → Session} (hrun : IsRun act σ) {Q : Option Move → Prop}
    {P : Session → Prop} (hstep : ∀ a h h', P h → ¬ Q a → h.turn a = some h' → P h') {n : Nat} (h0 : P (σ n))
    (hev : ∃ k, n ≤ k ∧ Q (act k)) : ∃ k, n ≤ k ∧ Q (act k) ∧ P (σ k) := by
  obtain ⟨k, hk, hQ⟩ := hev
  induction hk using Nat.decreasingInduction with
  | self => exact ⟨k, le_rfl, hQ, h0⟩
  | of_succ m _ ih =>
    by_cases hm : Q (act m)
    · exact ⟨m, le_rfl, hm, h0⟩
    · obtain ⟨k', hk', hrest⟩ := ih (hstep _ _ _ h0 hm (hrun m))
      exact ⟨k', Nat.le_of_succ_le hk', hrest⟩

/-- The block's own turn, or the one that drops its work. -/
def ExecutesOrResets (a : Option Move) : Prop := a = some .execute ∨ a = some .assertReset

/-- The requests `queue` are the oldest ones waiting, `DEC_STATE` is `d`, and the response queue has room. -/
def WaitsInFront (queue : List Beat) (d : DecState) (s : State) : Prop :=
  (∃ later, s.reqQueue = queue ++ later) ∧ s.decState = d ∧ s.rspQueue.length < Config.rspDepth

/-- Issuing puts requests behind those in front, and taking makes room. -/
theorem waitsInFront_turn {queue : List Beat} {d : DecState} {a : Option Move} {h h' : Session}
    (hw : WaitsInFront queue d h.state) (hother : ¬ ExecutesOrResets a) (ht : h.turn a = some h') :
    WaitsInFront queue d h'.state := by
  cases a with
  | none => cases ht; exact hw
  | some m =>
    obtain ⟨⟨later, hq⟩, hd, hroom⟩ := hw
    obtain ⟨b, -, -, -, rfl⟩ | ⟨b, rest, rfl, -⟩ | ⟨r, rs, -, hr, rfl⟩ | ⟨rfl, -⟩ := move_cases ht
    · exact ⟨⟨later ++ [b], by simp [hq]⟩, hd, hroom⟩
    · exact absurd (.inl rfl) hother
    · rw [hr, List.length_cons] at hroom
      exact ⟨⟨later, hq⟩, hd, Nat.lt_of_succ_lt hroom⟩
    · exact absurd (.inr rfl) hother

/-- Settles O52: the request still waits in front when the block's next turn comes, which therefore executes it. -/
theorem fairBlockExecutesWhenReady : Obligations.FairBlockExecutesWhenReady := by
  intro act σ hrun hfair n b rest hq hroom
  have hfront : WaitsInFront (b :: rest) (σ n).state.decState (σ n).state := ⟨⟨[], by simp [hq]⟩, rfl, hroom⟩
  have hev : ∃ k, n ≤ k ∧ ExecutesOrResets (act k) := hfair n ⟨by simp [hq], hroom⟩
  obtain ⟨k, hk, hexec | hreset, ⟨later, hqk⟩, hd, -⟩ :=
    exists_first_turn hrun (P := fun h => WaitsInFront (b :: rest) (σ n).state.decState h.state)
      (fun _ _ _ => waitsInFront_turn) hfront hev
  · obtain ⟨b', rest', hq', hnext⟩ := move_execute (run_move hrun hexec)
    obtain ⟨rfl, rfl⟩ := List.cons.inj (hqk.symm.trans hq')
    exact .inr ⟨k, later, _, hk, hexec, hqk, hd, by rw [hnext]; rfl, by rw [hnext]; rfl⟩
  · exact .inl ⟨k, hk, hreset⟩

/-! ### Answers -/

/-- Every turn but reset only adds to what has been accepted and to what has been taken. -/
theorem prefix_turn {a : Option Move} {h h' : Session} (hne : a ≠ some .assertReset) (ht : h.turn a = some h') :
    h.accepted <+: h'.accepted ∧ h.taken <+: h'.taken := by
  cases a with
  | none => cases ht; exact ⟨List.prefix_rfl, List.prefix_rfl⟩
  | some m =>
    obtain ⟨b, -, -, -, rfl⟩ | ⟨b, rest, -, -, -, rfl⟩ | ⟨r, rs, -, -, rfl⟩ | ⟨rfl, -⟩ := move_cases ht
    · exact ⟨List.prefix_append _ _, List.prefix_rfl⟩
    · exact ⟨List.prefix_rfl, List.prefix_rfl⟩
    · exact ⟨List.prefix_rfl, List.prefix_append _ _⟩
    · exact absurd rfl hne

theorem servedInOrder_turn {d : DecState} {a : Option Move} {h h' : Session} (hs : ServedInOrder d h)
    (hne : a ≠ some .assertReset) (ht : h.turn a = some h') : ServedInOrder d h' := by
  cases a with
  | none => cases ht; exact hs
  | some m => exact servedInOrder_move hs (fun hm => hne (congrArg some hm)) ht

theorem replies_prefix {as bs : List Beat} (h : as <+: bs) (d : DecState) : replies d as <+: replies d bs := by
  obtain ⟨cs, rfl⟩ := h
  exact ⟨_, (replies_append d as cs).symm⟩

/-- The responses taken are the first replies to the requests accepted. -/
theorem taken_prefix_replies {d : DecState} {h : Session} (hs : ServedInOrder d h) :
    h.taken <+: replies d h.accepted := by
  obtain ⟨done, hacc, hrsp, -⟩ := hs
  exact .trans ⟨_, hrsp⟩ (replies_prefix ⟨_, hacc.symm⟩ d)

/-- A response not taken is queued, or its request still waits. -/
theorem reqQueue_ne_nil_of_taken_lt {d : DecState} {h : Session} (hs : ServedInOrder d h)
    (hlt : h.taken.length < h.accepted.length) (hrsp : h.state.rspQueue = []) : h.state.reqQueue ≠ [] := by
  intro hq
  obtain ⟨done, hacc, hreplies, -⟩ := hs
  rw [hq, List.append_nil] at hacc
  rw [hrsp, List.append_nil] at hreplies
  rw [hacc, hreplies, replies_length] at hlt
  exact Nat.lt_irrefl _ hlt

section NoReset

variable {act : Nat → Option Move} {σ : Nat → Session} {d : DecState} (hrun : IsRun act σ)
  (hreset : ∀ k, act k ≠ some .assertReset)
include hrun hreset

theorem servedInOrder_run (h0 : ServedInOrder d (σ 0)) (k : Nat) : ServedInOrder d (σ k) :=
  run_invariant hrun h0 (fun k _ _ hs => servedInOrder_turn hs (hreset k)) k (Nat.zero_le k)

theorem prefix_run {n k : Nat} (hk : n ≤ k) :
    (σ n).accepted <+: (σ k).accepted ∧ (σ n).taken <+: (σ k).taken := by
  refine run_invariant (P := fun h => (σ n).accepted <+: h.accepted ∧ (σ n).taken <+: h.taken) hrun
    ⟨List.prefix_rfl, List.prefix_rfl⟩ (fun k h' _ hsofar ht => ?_) k hk
  obtain ⟨hacc, htaken⟩ := hsofar
  obtain ⟨hacc', htaken'⟩ := prefix_turn (hreset k) ht
  exact ⟨hacc.trans hacc', htaken.trans htaken'⟩

variable (hfair : FairBlock act σ) (htaking : TakingHost act σ) (h0 : ServedInOrder d (σ 0))
include hfair htaking h0

/-- As long as a response is owed, the host takes one: it is queued already, or the block's next execution queues one. -/
theorem exists_take_of_owed {n : Nat} (howed : (σ n).taken.length < (σ n).accepted.length) :
    ∃ k, n ≤ k ∧ act k = some .take := by
  have hqueued : ∀ m, (σ m).state.rspQueue ≠ [] → ∃ k, m ≤ k ∧ act k = some .take := fun m hm => by
    obtain ⟨k, hk, ht | hr⟩ := htaking m hm
    · exact ⟨k, hk, ht⟩
    · exact absurd hr (hreset k)
  by_cases hrsp : (σ n).state.rspQueue = []
  · have hreq := reqQueue_ne_nil_of_taken_lt (servedInOrder_run hrun hreset h0 n) howed hrsp
    obtain ⟨m, hm, hexec | hr⟩ := hfair n ⟨hreq, by rw [hrsp]; exact Config.rspDepth_pos⟩
    · obtain ⟨b, rest, -, hnext⟩ := move_execute (run_move hrun hexec)
      obtain ⟨k, hk, htake⟩ := hqueued (m + 1) (by simp [hnext])
      exact ⟨k, by omega, htake⟩
    · exact absurd hr (hreset m)
  · exact hqueued n hrsp

/-- As many responses as requests have been accepted are taken in the end: each take brings the number one further. -/
theorem exists_taken_length_ge {n i : Nat} (hi : i ≤ (σ n).accepted.length) :
    ∃ k, n ≤ k ∧ i ≤ (σ k).taken.length := by
  induction i with
  | zero => exact ⟨n, le_rfl, Nat.zero_le _⟩
  | succ i ih =>
    obtain ⟨m, hm, htaken⟩ := ih (Nat.le_of_succ_le hi)
    have hacc := (prefix_run hrun hreset hm).1.length_le
    by_cases howed : (σ m).taken.length < (σ m).accepted.length
    · obtain ⟨k, hk, htake⟩ := exists_take_of_owed hrun hreset hfair htaking h0 howed
      have hgrows := (prefix_run hrun hreset hk).2.length_le
      have hone := length_taken_of_take (run_move hrun htake)
      exact ⟨k + 1, by omega, by omega⟩
    · exact ⟨m, hm, by omega⟩

end NoReset

/-- Settles O51: in the end more than `j` responses have been taken, and these are replies to the requests in order. -/
theorem fairBlockAnswersEveryRequest : Obligations.FairBlockAnswersEveryRequest := by
  intro act σ s hs hσ hrun hfair htaking n j b hbefore hj
  refine or_iff_not_imp_left.2 fun hafter => ?_
  have hreset : ∀ k, act k ≠ some .assertReset := fun k =>
    (lt_or_ge k n).elim (hbefore k) fun hk ha => hafter ⟨k, hk, ha⟩
  have h0 : ServedInOrder s.decState (σ 0) := hσ ▸ servedInOrder_start hs
  obtain ⟨hlt, -⟩ := List.getElem?_eq_some_iff.1 hj
  obtain ⟨k, hk, hlen⟩ := exists_taken_length_ge hrun hreset hfair htaking h0 hlt
  have htaken : (σ k).taken <+: replies s.decState (σ k).accepted :=
    taken_prefix_replies (servedInOrder_run hrun hreset h0 k)
  have hserved : replies s.decState ((σ n).accepted.take (j + 1)) <+: replies s.decState (σ k).accepted :=
    replies_prefix ((List.take_prefix _ _).trans (prefix_run hrun hreset hk).1) _
  obtain ⟨hq, hr⟩ := hs
  refine ⟨k, _, _, (σ k).taken[j], hk, serve_of_quiet hq hr _, ?_, List.getElem?_eq_getElem hlen⟩
  have hlen' : j < (replies s.decState ((σ n).accepted.take (j + 1))).length := by
    rw [replies_length, List.length_take]
    exact Nat.lt_min.2 ⟨Nat.lt_succ_self j, hlt⟩
  rw [List.getElem?_eq_getElem hlen', hserved.getElem hlen', htaken.getElem hlen]

end Sys2Proof.Machine
end
